-- ==== Sys2Proof/Word.lean ====
section
/-! DEFINITION. The word types of the ports and of the request word (00_scope.md R10, 10_state.md R18 and R19). -/
namespace Sys2Proof

/-- The word on the ports `a`, `b`, `c`, `r` and `r2`: `W` = 128 bits (R10). -/
abbrev Word := BitVec 128

/-- A 256-bit quantity, carried on two port words (20_memory.md R39). -/
abbrev Word256 := BitVec 256

/-- The word on the port `amt`: 32 bits (R10). -/
abbrev Amount := BitVec 32

/-- The word on the port `op`: 4 bits (R10). -/
abbrev OpSelect := BitVec 4

/-- A whole request as one word of 420 bits (30_encoding.md R48). -/
abbrev RequestWord := BitVec 420

end Sys2Proof
end

