-- ==== Sys2Proof/Syntax.lean ====
section
/-! DEFINITION. The instructions (one constructor per row of the op-select map, 30_encoding.md R52), the request and the
response as tuples of ports (10_state.md R17 to R19), and the two kinds of fault (60_exceptions.md R121). -/
namespace Sys2Proof

/-- One selected operation with the operands it reads, and no other port (30_encoding.md R51 to R53; log entry 10). -/
inductive Instr where
  /-- op 0x0, format FP2 (43_add_sub.md R95) -/
  | addQpo (a b : Word)
  /-- op 0x1, format FP2 (43_add_sub.md R96) -/
  | subQpo (a b : Word)
  /-- op 0x2, format FP2 (44_mul.md R102) -/
  | mulQpo (a b : Word)
  /-- op 0x3, format FP2 (45_div.md R107) -/
  | divQpo (a b : Word)
  /-- op 0x4, format FP3 (46_fma.md R112) -/
  | fmaQpo (a b c : Word)
  /-- op 0x5, format FP1 (40_codec_classifier.md R66) -/
  | classF128 (a : Word)
  /-- op 0x6, format FP1 (40_codec_classifier.md R64) -/
  | decodeF128 (a : Word)
  /-- op 0x7, format ENC: `a[0]`, `b[14:0]`, `c[111:0]` (40_codec_classifier.md R65) -/
  | encodeF128 (sign : Bool) (exponent : BitVec 15) (fraction : BitVec 112)
  /-- op 0x8, format MUL (41_integer_primitives.md R70) -/
  | mul128x128 (a b : Word)
  /-- op 0x9, format DIV: dividend `a ‖ b`, divisor `c` (41_integer_primitives.md R72) -/
  | div256by128 (a b c : Word)
  /-- op 0xA, format SH1 (41_integer_primitives.md R75) -/
  | srs128 (a : Word) (amt : Amount)
  /-- op 0xB, format SH2 (41_integer_primitives.md R76) -/
  | srs256 (a b : Word) (amt : Amount)
  /-- op 0xC, format SH1 (41_integer_primitives.md R77) -/
  | sls128 (a : Word) (amt : Amount)
  /-- op 0xD, format SH2 (41_integer_primitives.md R78) -/
  | sls256 (a b : Word) (amt : Amount)
  deriving DecidableEq, Repr

/-- A request: what the caller presents on the input ports (10_state.md R17 and R18). -/
structure Request where
  op  : OpSelect
  a   : Word
  b   : Word
  c   : Word
  amt : Amount
  deriving DecidableEq, Repr

/-- The outputs of a request that did not fault (10_state.md R17 and R19). An output an operation's row does not write is
driven to 0 (30_encoding.md R54): the defaults. The port `err` is 0 for every such response. -/
structure Response where
  r  : Word
  r2 : Word := 0
  f  : Bool := false
  deriving DecidableEq, Repr

/-- The two fault kinds of the block (60_exceptions.md R121). -/
inductive FaultKind where
  /-- a reserved op value, 0xE or 0xF -/
  | illegalOperation
  /-- DIV_256BY128 with `c = 0` or `a ≥ c` -/
  | dividePrecondition
  deriving DecidableEq, Repr

end Sys2Proof
end

