-- ==== Sys2Proof/WellFormed.lean ====
section
/-! DEFINITION. Which requests and instructions are legal by encoding (30_encoding.md R55 and R56). -/
namespace Sys2Proof

/-- A request is legal by encoding exactly when its op is a row of the op-select map: `op ≤ 0xD` (R56). "No field other than
`op` can make a request illegal by encoding." -/
def Request.wellFormed (q : Request) : Bool :=
  decide (q.op.toNat ≤ 0xD)

/-- Every instruction is legal: "Every combination of the other fields with op 0x0 to 0xD is legal" (R55). The widths of the
operands are those of their types, so no operand needs a check. DIV_256BY128's precondition "is a fault by value, not by
encoding". -/
def Instr.wellFormed (i : Instr) : Bool :=
  match i with
  | .addQpo _ _ => true
  | .subQpo _ _ => true
  | .mulQpo _ _ => true
  | .divQpo _ _ => true
  | .fmaQpo _ _ _ => true
  | .classF128 _ => true
  | .decodeF128 _ => true
  | .encodeF128 _ _ _ => true
  | .mul128x128 _ _ => true
  | .div256by128 _ _ _ => true
  | .srs128 _ _ => true
  | .srs256 _ _ _ => true
  | .sls128 _ _ => true
  | .sls256 _ _ _ => true

end Sys2Proof
end

