-- ==== Sys2Proof/Decode.lean ====
section
/-! DEFINITION. The request word's layout (30_encoding.md R48), the decoder (R49, R50, R52, R53, R56) and, after it, the
encoder. -/
namespace Sys2Proof

/-- The request word `a ‖ b ‖ c ‖ amt ‖ op` (R48): `op` in bits 3:0, `amt` in 35:4, `c` in 163:36, `b` in 291:164, `a` in
419:292. -/
def Request.word (q : Request) : RequestWord :=
  q.a ++ q.b ++ q.c ++ q.amt ++ q.op

/-- The ports a request word names (R48). -/
def Request.ofWord (w : RequestWord) : Request where
  op  := w.extractLsb' 0 4
  amt := w.extractLsb' 4 32
  c   := w.extractLsb' 36 128
  b   := w.extractLsb' 164 128
  a   := w.extractLsb' 292 128

/-- Operation select and operand assembly (R49, R50, R52, R53): total on every request, a reserved op faulting by name (R56).
`op` alone selects, and a port the operation's row does not list is dropped here (R54). -/
def Request.decode (q : Request) : Except FaultKind Instr :=
  match q.op.toNat with
  | 0x0 => .ok (.addQpo q.a q.b)
  | 0x1 => .ok (.subQpo q.a q.b)
  | 0x2 => .ok (.mulQpo q.a q.b)
  | 0x3 => .ok (.divQpo q.a q.b)
  | 0x4 => .ok (.fmaQpo q.a q.b q.c)
  | 0x5 => .ok (.classF128 q.a)
  | 0x6 => .ok (.decodeF128 q.a)
  | 0x7 => .ok (.encodeF128 (q.a.getLsbD 0) (q.b.extractLsb' 0 15) (q.c.extractLsb' 0 112))
  | 0x8 => .ok (.mul128x128 q.a q.b)
  | 0x9 => .ok (.div256by128 q.a q.b q.c)
  | 0xA => .ok (.srs128 q.a q.amt)
  | 0xB => .ok (.srs256 q.a q.b q.amt)
  | 0xC => .ok (.sls128 q.a q.amt)
  | 0xD => .ok (.sls256 q.a q.b q.amt)
  | _   => .error .illegalOperation

/-- `Decode(req)` on a 420-bit request word (R56). -/
def decode (w : RequestWord) : Except FaultKind Instr :=
  (Request.ofWord w).decode

/-- The op value of an instruction (the op-select map, R52). -/
def Instr.op (i : Instr) : OpSelect :=
  match i with
  | .addQpo _ _ => 0x0
  | .subQpo _ _ => 0x1
  | .mulQpo _ _ => 0x2
  | .divQpo _ _ => 0x3
  | .fmaQpo _ _ _ => 0x4
  | .classF128 _ => 0x5
  | .decodeF128 _ => 0x6
  | .encodeF128 _ _ _ => 0x7
  | .mul128x128 _ _ => 0x8
  | .div256by128 _ _ _ => 0x9
  | .srs128 _ _ => 0xA
  | .srs256 _ _ _ => 0xB
  | .sls128 _ _ => 0xC
  | .sls256 _ _ _ => 0xD

/-- The request an instruction stands for: its operands on the ports of its row (R53), and "0 on every port the operation does
not read" (R57). -/
def Instr.request (i : Instr) : Request :=
  match i with
  | .addQpo a b => { op := i.op, a := a, b := b, c := 0, amt := 0 }
  | .subQpo a b => { op := i.op, a := a, b := b, c := 0, amt := 0 }
  | .mulQpo a b => { op := i.op, a := a, b := b, c := 0, amt := 0 }
  | .divQpo a b => { op := i.op, a := a, b := b, c := 0, amt := 0 }
  | .fmaQpo a b c => { op := i.op, a := a, b := b, c := c, amt := 0 }
  | .classF128 a => { op := i.op, a := a, b := 0, c := 0, amt := 0 }
  | .decodeF128 a => { op := i.op, a := a, b := 0, c := 0, amt := 0 }
  | .encodeF128 s e f =>
      { op := i.op, a := (BitVec.ofBool s).setWidth 128, b := e.setWidth 128, c := f.setWidth 128, amt := 0 }
  | .mul128x128 a b => { op := i.op, a := a, b := b, c := 0, amt := 0 }
  | .div256by128 a b c => { op := i.op, a := a, b := b, c := c, amt := 0 }
  | .srs128 a n => { op := i.op, a := a, b := 0, c := 0, amt := n }
  | .srs256 a b n => { op := i.op, a := a, b := b, c := 0, amt := n }
  | .sls128 a n => { op := i.op, a := a, b := 0, c := 0, amt := n }
  | .sls256 a b n => { op := i.op, a := a, b := b, c := 0, amt := n }

/-- The request word of an instruction. -/
def encode (i : Instr) : RequestWord :=
  i.request.word

/-- The bits of the request word that the operation selected by `op` reads, `op` itself among them: the rows of R53 in the
bit positions of R48 (`source_fields` of opcode_table.json). A reserved op reads `op` alone (60_exceptions.md R124). -/
def readMask (op : OpSelect) : RequestWord :=
  let opBits : Nat := 0xF
  let amt : Nat := (2 ^ 32 - 1) <<< 4
  let c : Nat := (2 ^ 128 - 1) <<< 36
  let b : Nat := (2 ^ 128 - 1) <<< 164
  let a : Nat := (2 ^ 128 - 1) <<< 292
  let fields : Nat :=
    match op.toNat with
    | 0x0 | 0x1 | 0x2 | 0x3 | 0x8 => opBits ||| a ||| b
    | 0x4 | 0x9 => opBits ||| a ||| b ||| c
    | 0x5 | 0x6 => opBits ||| a
    | 0x7 => opBits ||| (1 <<< 292) ||| ((2 ^ 15 - 1) <<< 164) ||| ((2 ^ 112 - 1) <<< 36)
    | 0xA | 0xC => opBits ||| a ||| amt
    | 0xB | 0xD => opBits ||| a ||| b ||| amt
    | _ => opBits
  BitVec.ofNat 420 fields

/-- The 420-bit request word that the table's numbering gives: the low `nbits` bits of `w`, every bit above them 0, and no bit
beyond the 420 a request has (log entry 11). -/
def tableWord (nbits w : Nat) : RequestWord :=
  BitVec.ofNat 420 (w % 2 ^ nbits)

/-- The instruction the decoder reads from the table's word `w` of `nbits` bits. -/
def decodeTableWord (nbits w : Nat) : Option Instr :=
  match decode (tableWord nbits w) with
  | .ok i => some i
  | .error _ => none

end Sys2Proof
end

