-- ==== Sys2Proof/Config.lean ====
section
/-! DEFINITION. The values the spec leaves open: each is a constant without a body, applied to a counter of State, so that
nothing can be proved about a value (93_implementation_defined.md I7 and I8). The block has no other open parameter that a
value depends on: `LATENCY(op)` (00_scope.md R11) is left out with time (log entry 8). -/
namespace Sys2Proof.Config

/-- The word a faulting request leaves on `r` (60_exceptions.md R122: any value). Log entry 6. -/
opaque faultR : Nat → Word

/-- The word a faulting request leaves on `r2` (R122: any value). Log entry 6. -/
opaque faultR2 : Nat → Word

/-- The bit a faulting request leaves on `f` (R122: any value). Log entry 6. -/
opaque faultF : Nat → Bool

/-- The word on `r` while and after reset is asserted (70_reset_and_hazards.md R138: unspecified). Log entry 9. -/
opaque resetR : Nat → Word

/-- The word on `r2` while and after reset is asserted (R138: unspecified). Log entry 9. -/
opaque resetR2 : Nat → Word

/-- The bit on `f` while and after reset is asserted (R138: unspecified). Log entry 9. -/
opaque resetF : Nat → Bool

/-- The bit on `err` while and after reset is asserted (R138: unspecified). Log entry 9. -/
opaque resetErr : Nat → Bool

end Sys2Proof.Config
end

