-- ==== Sys2Proof/Machine/State.lean ====
section
/-! DEFINITION. The state, the reasons a step can stop, and the state after reset. -/
namespace Sys2Proof.Machine

/-- What a model of the block must represent: the requests on its input side and the response on its output ports. The block
itself "holds no architectural state between requests" (10_state.md R16): no register, flag, mode, memory or program counter
(R20 to R22, R33, 20_memory.md R35). -/
structure State where
  /-- The requests presented on the input ports and not yet answered, oldest first; the oldest is the one on the ports `op`,
  `a`, `b`, `c`, `amt` (R17, R18; "returns responses in the order it accepted the requests", 20_memory.md R43; the requests in
  flight of 70_reset_and_hazards.md R138). The list is the model's form of the input side (DESIGN CHOICE, log entry 1). -/
  requests  : List Request
  /-- The request that the outputs answer: "Outputs are defined only as the response to a request" (R34). `none` before the
  first response; the outputs are then unspecified. The model's own field (log entry 7). -/
  answered  : Option Request
  /-- Output port `r`: primary result (R19). -/
  r         : Word
  /-- Output port `r2`: secondary result (R19). -/
  r2        : Word
  /-- Output port `f`: flag result (R19). -/
  f         : Bool
  /-- Output port `err`: 1 when the request faulted (R19). -/
  err       : Bool
  /-- The kind of the fault the last response reports: "not presented on a port. A model keeps it" (60_exceptions.md R122). The
  model's own field (log entry 5). -/
  faultKind : Option FaultKind
  /-- How many free values have been used: the model's own counter, the argument of the constants of Config (log entry 6). -/
  freeCount : Nat
  deriving DecidableEq, Repr

/-- Why a step stops. The block's own faults (60_exceptions.md R121) are not here: a faulting request is answered with
`err = 1` and the block goes on (R123, R127; log entry 5). -/
inductive Fault where
  /-- Raised by `step` when no request is presented: there is no response to give (10_state.md R17). Safe (log entry 3). -/
  | noRequest
  deriving DecidableEq, Repr

/-- Why an instruction has no meaning. -/
inductive Refusal where
  /-- Raised by an arm of `exec` whose instruction has no meaning yet: no arm does. Safe. -/
  | notModelled (mnemonic : String)
  deriving DecidableEq, Repr

/-- After reset nothing is in flight (70_reset_and_hazards.md R138), nothing has been answered (10_state.md R34), and there is
no other state (R137). The outputs are unspecified then: the zeros are the model's choice (DESIGN CHOICE, log entry 4). -/
def State.reset : State where
  requests  := []
  answered  := none
  r         := 0
  r2        := 0
  f         := false
  err       := false
  faultKind := none
  freeCount := 0

end Sys2Proof.Machine
end

