-- ==== Sys2Proof/Machine/Ops.lean ====
section
/-! DEFINITION. The named operations over State: presenting and accepting a request, answering it, taking a fault, and reset
asserted from outside. The block has no memory and no register to read or write (20_memory.md R35, 10_state.md R20). -/
namespace Sys2Proof.Machine

/-- The caller presents a request (10_state.md R17): it is answered after the ones presented before it (20_memory.md R43). -/
def State.present (s : State) (q : Request) : State :=
  { s with requests := s.requests ++ [q] }

/-- The block takes the oldest request from the input ports, all of its fields together (20_memory.md R40); `none` where
nothing is presented. -/
def State.accept (s : State) : Option (Request × State) :=
  match s.requests with
  | [] => none
  | q :: rest => some (q, { s with requests := rest, answered := some q })

/-- Drive the outputs of a response: `r`, `r2`, `f`, and `err = 0` (10_state.md R19). -/
def State.respond (s : State) (p : Response) : State :=
  { s with r := p.r, r2 := p.r2, f := p.f, err := false, faultKind := none }

/-- TAKE A FAULT (60_exceptions.md R121 to R123, R126): `err = 1`, the kind kept, and nothing else: "A fault (rule R121) saves
no state, changes no mode, and transfers control nowhere". The outputs `r`, `r2` and `f` are free values (R122). There is no
return from a fault: "The next request after a fault proceeds normally" (R127). -/
def State.takeFault (s : State) (k : FaultKind) : State :=
  { s with
    r := Config.faultR s.freeCount
    r2 := Config.faultR2 s.freeCount
    f := Config.faultF s.freeCount
    err := true
    faultKind := some k
    freeCount := s.freeCount + 1 }

/-- Give a request's outcome, a response or a fault, on the outputs (10_state.md R17). -/
def State.answer (s : State) : Except FaultKind Response → State
  | .ok p => s.respond p
  | .error k => s.takeFault k

/-- The outcome the outputs show (10_state.md R17 and R19). -/
def State.response (s : State) : Except FaultKind Response :=
  match s.faultKind with
  | some k => .error k
  | none => .ok { r := s.r, r2 := s.r2, f := s.f }

/-- The reset input asserted (70_reset_and_hazards.md R138): the requests in flight get no response, and the outputs are
unspecified until the next response. A host input, not a step. -/
def State.assertReset (s : State) : State :=
  { requests := []
    answered := none
    r := Config.resetR s.freeCount
    r2 := Config.resetR2 s.freeCount
    f := Config.resetF s.freeCount
    err := Config.resetErr s.freeCount
    faultKind := none
    freeCount := s.freeCount + 1 }

end Sys2Proof.Machine
end

