-- ==== Sys2Proof/Machine/Operands.lean ====
section
/-! DEFINITION. The operand forms of 30_encoding.md R51: 128-bit words taken whole, 256-bit quantities on two ports, and the
shift amount; and the fields of a binary128 pattern (10_state.md R23). -/
namespace Sys2Proof.Machine

/-- `x ‖ y`: a 256-bit operand, high half first (20_memory.md R39). -/
def join (hi lo : Word) : Word256 :=
  hi ++ lo

/-- `w[255:128]`, the half that goes to `r` (20_memory.md R39). -/
def hiHalf (w : Word256) : Word :=
  w.extractLsb' 128 128

/-- `w[127:0]`, the half that goes to `r2` (20_memory.md R39). -/
def loHalf (w : Word256) : Word :=
  w.extractLsb' 0 128

/-- A 256-bit result on `r ‖ r2` with its flag (the formats MUL and SH2 of R51). -/
def wideResponse (w : Word256) (f : Bool) : Response :=
  { r := hiHalf w, r2 := loHalf w, f := f }

/-- The shift amount: "an unsigned 32-bit integer, zero-extended. It is never sign-extended, scaled or shifted"
(30_encoding.md R50). -/
def amount (amt : Amount) : Nat :=
  amt.toNat

/-- `v[127]` (10_state.md R23). -/
def signBit (v : Word) : Bool :=
  v.getLsbD 127

/-- `v[126:112]` (R23). -/
def expField (v : Word) : BitVec 15 :=
  v.extractLsb' 112 15

/-- `v[111:0]` (R23). -/
def fracField (v : Word) : BitVec 112 :=
  v.extractLsb' 0 112

/-- `s << 127`. -/
def signWord (s : Bool) : Word :=
  (BitVec.ofBool s).setWidth 128 <<< 127

end Sys2Proof.Machine
end

