-- ==== Sys2Proof/Machine/Binary128.lean ====
section
/-! DEFINITION. The binary128 format (10_state.md R23 to R30) and the functions every arithmetic core shares
(40_codec_classifier.md R59 to R63). -/
namespace Sys2Proof.Machine

/-- The six categories of a pattern (10_state.md R25). -/
inductive Category where
  | zero
  | subnormal
  | normal
  | infinity
  | quietNaN
  | signalingNaN
  deriving DecidableEq, Repr

/-- `Classify(v)` (R25). -/
def classify (v : Word) : Category :=
  if expField v = 0 then
    if fracField v = 0 then .zero else .subnormal
  else if expField v ≠ 0x7FFF then .normal
  else if fracField v = 0 then .infinity
  else if (fracField v).getLsbD 111 then .quietNaN
  else .signalingNaN

/-- The category codes the classifier outputs (40_codec_classifier.md R62). -/
def categoryCode (k : Category) : Nat :=
  match k with
  | .zero => 0
  | .subnormal => 1
  | .normal => 2
  | .infinity => 3
  | .quietNaN => 4
  | .signalingNaN => 5

/-- `IsNaN(v)` (10_state.md R25). -/
def isNaN (v : Word) : Bool :=
  classify v = .quietNaN || classify v = .signalingNaN

/-- `IsInf(v)` (R25). -/
def isInf (v : Word) : Bool :=
  classify v = .infinity

/-- `IsZero(v)` (R25). -/
def isZero (v : Word) : Bool :=
  classify v = .zero

/-- `IsFinite(v)` (R25). -/
def isFinite (v : Word) : Bool :=
  classify v = .zero || classify v = .subnormal || classify v = .normal

/-- `PZERO` (10_state.md R28). -/
def pZero : Word := 0x00000000000000000000000000000000

/-- `NZERO` (R28). -/
def nZero : Word := 0x80000000000000000000000000000000

/-- `MINSUB`, of value 2^-16494 (R28). -/
def minSub : Word := 0x00000000000000000000000000000001

/-- `MAXSUB` (R28). -/
def maxSub : Word := 0x0000FFFFFFFFFFFFFFFFFFFFFFFFFFFF

/-- `MINNORM`, of value 2^-16382 (R28). -/
def minNorm : Word := 0x00010000000000000000000000000000

/-- `ONE` (R28). -/
def one : Word := 0x3FFF0000000000000000000000000000

/-- `MAXF`, the largest finite magnitude (R28). -/
def maxF : Word := 0x7FFEFFFFFFFFFFFFFFFFFFFFFFFFFFFF

/-- `PINF` (R28). -/
def pInf : Word := 0x7FFF0000000000000000000000000000

/-- `NINF` (R28). -/
def nInf : Word := 0xFFFF0000000000000000000000000000

/-- `DNAN`, the default quiet NaN (10_state.md R29). -/
def dNaN : Word := 0x7FFF8000000000000000000000000000

/-- `(s << 127) | v`: a magnitude with its sign. -/
def withSign (s : Bool) (v : Word) : Word :=
  signWord s ||| v

/-- `Quiet(v) = v | (1 << 111)` (10_state.md R30). -/
def quiet (v : Word) : Word :=
  v ||| (1 <<< 111)

/-- `SelectNaN`: the first NaN in argument order, quieted (40_codec_classifier.md R63). The rule applies it "only when at least
one is a NaN"; `none` otherwise (log entry 14). -/
def selectNaN (xs : List Word) : Option Word :=
  (xs.find? isNaN).map quiet

/-- What `Decode(v)` returns (40_codec_classifier.md R59). -/
structure Fields where
  sign        : Bool
  exponent    : BitVec 15
  significand : BitVec 113
  deriving DecidableEq, Repr

/-- `Decode(v)` (R59): the implicit bit is 1 for `1 ≤ e ≤ 0x7FFE`, else 0, infinity and NaN among the latter (R60). -/
def decodeFields (v : Word) : Fields where
  sign        := signBit v
  exponent    := expField v
  significand := BitVec.ofBool (expField v ≠ 0 ∧ expField v ≠ 0x7FFF) ++ fracField v

/-- `Encode(s, e, sig)` (40_codec_classifier.md R61): no validation, and every bit of `sig` above bit 111 dropped. -/
def encodeFields (s : Bool) (e : BitVec 15) (sig : Word) : Word :=
  signWord s ||| (e.setWidth 128 <<< 112) ||| (sig.extractLsb' 0 112).setWidth 128

end Sys2Proof.Machine
end

