-- ==== Sys2Proof/Machine/Rounding.lean ====
section
/-! DEFINITION. The value of a pattern (10_state.md R27), and how an exact result becomes a pattern
(42_round_to_odd.md R80 to R86). "Real-valued arithmetic on operand values is exact, over the rationals" (00_scope.md R13). -/
namespace Sys2Proof.Machine

/-- `2^k` for an integer `k`. -/
def pow2 (k : Int) : ℚ :=
  match k with
  | .ofNat n => ((2 ^ n : Nat) : ℚ)
  | .negSucc n => mkRat 1 (2 ^ (n + 1))

/-- `floor(log2(x))` for `x > 0`, from the bit lengths of numerator and denominator. -/
def floorLog2 (x : ℚ) : Int :=
  let e : Int := (x.num.toNat.log2 : Int) - (x.den.log2 : Int)
  if pow2 e ≤ x then e else e - 1

/-- `|Value(v)|` of a finite pattern (10_state.md R27). -/
def magnitude (v : Word) : ℚ :=
  let e : Int := (expField v).toNat
  let f : Nat := (fracField v).toNat
  if e = 0 then (f : ℚ) * pow2 (1 - 16383 - 112) else ((2 ^ 112 + f : Nat) : ℚ) * pow2 (e - 16383 - 112)

/-- `(-1)^s * x`. -/
def signed (s : Bool) (x : ℚ) : ℚ :=
  if s then -x else x

/-- `Value(v)` of a finite pattern (R27). -/
def value (v : Word) : ℚ :=
  signed (signBit v) (magnitude v)

/-- `MAXV` = Value(MAXF) = (2^113 - 1) * 2^16271 (10_state.md R28). -/
def maxV : ℚ :=
  value maxF

/-- The exponent of the result's binade, "clamped at the subnormal floor": the `E` of R83. -/
def binade (x : ℚ) : Int :=
  max (floorLog2 x) (-16382)

/-- The `q` of R83: "value of the result's least significant bit". -/
def quantum (x : ℚ) : ℚ :=
  pow2 (binade x - 112)

/-- The `t` of R83 before the sticky is applied: the truncated significand. -/
def truncated (x : ℚ) : Nat :=
  (x / quantum x).floor.toNat

/-- The `t` of R83: "sticky set: force the LSB to 1". -/
def oddSignificand (x : ℚ) : Nat :=
  if (truncated x : ℚ) * quantum x = x then truncated x else truncated x ||| 1

/-- A sign, a binade and a significand below 2^113 as a pattern (the last two lines of R83 and of R88): normal where
`t ≥ 2^112`, else subnormal. -/
def packResult (s : Bool) (e : Int) (t : Nat) : Word :=
  if 2 ^ 112 ≤ t then
    signWord s ||| (BitVec.ofNat 128 (e + 16383).toNat <<< 112) ||| BitVec.ofNat 128 (t - 2 ^ 112)
  else
    signWord s ||| BitVec.ofNat 128 t

/-- `RTO(s, x)` for `0 < x ≤ MAXV` (42_round_to_odd.md R83). -/
def rto (s : Bool) (x : ℚ) : Word :=
  packResult s (binade x) (oddSignificand x)

/-- The magnitude `x > 0` rounded to odd: beyond MAXV "the largest finite magnitude with the sign of `x`" (R82), else RTO. -/
def roundToOdd (s : Bool) (x : ℚ) : Word :=
  if maxV < x then withSign s maxF else rto s x

/-- `FromReal(x, zs)` (R81), with the overflow of R82. -/
def fromReal (x : ℚ) (zs : Bool) : Word :=
  if x = 0 then signWord zs
  else if x < 0 then roundToOdd true (-x)
  else roundToOdd false x

end Sys2Proof.Machine
end

