-- ==== Sys2Proof/Machine/AddSub.lean ====
section
/-! DEFINITION. fp_adder_quad: ADD_QPO and SUB_QPO (43_add_sub.md). -/
namespace Sys2Proof.Machine

/-- The decision table of R92, `sb` being the effective sign of `b`; the exact zero's sign is that of R93. -/
def addSub (a b : Word) (sb : Bool) : Word :=
  let sa := signBit a
  match selectNaN [a, b] with
  | some x => x
  | none =>
    if isInf a && isInf b && sa == sb then a
    else if isInf a && isInf b && sa != sb then dNaN
    else if isInf a then a
    else if isInf b then withSign sb pInf
    else fromReal (value a + signed sb (magnitude b)) (sa && sb)

/-- `add_qpo(a, b)` (R95). -/
def addQpo (a b : Word) : Response :=
  { r := addSub a b (signBit b) }

/-- `sub_qpo(a, b)` (R96). -/
def subQpo (a b : Word) : Response :=
  { r := addSub a b (!signBit b) }

/-- ADD_QPO (R95). -/
def execAddQpo (a b : Word) (s : State) : Host.Outcome State Fault Refusal :=
  .next (s.respond (addQpo a b))

/-- SUB_QPO (R96). -/
def execSubQpo (a b : Word) (s : State) : Host.Outcome State Fault Refusal :=
  .next (s.respond (subQpo a b))

end Sys2Proof.Machine
end

