-- ==== Sys2Proof/Machine/Codec.lean ====
section
/-! DEFINITION. floating_point_classifier and field_codec_fp128: CLASS_F128, DECODE_F128 and ENCODE_F128
(40_codec_classifier.md). -/
namespace Sys2Proof.Machine

/-- The classifier (R66): the category's code on `r`, the sign on `f`. -/
def classF128 (a : Word) : Response :=
  { r := BitVec.ofNat 128 (categoryCode (classify a)), f := signBit a }

/-- `decode(v)` on the ports (R64). -/
def decodeF128 (a : Word) : Response :=
  let d := decodeFields a
  { r := d.significand.setWidth 128, r2 := d.exponent.setWidth 128, f := d.sign }

/-- `encode(sign, exponent, significand)` on the ports (R65). -/
def encodeF128 (s : Bool) (e : BitVec 15) (fraction : BitVec 112) : Response :=
  { r := encodeFields s e (fraction.setWidth 128) }

/-- CLASS_F128 (R66). -/
def execClassF128 (a : Word) (s : State) : Host.Outcome State Fault Refusal :=
  .next (s.respond (classF128 a))

/-- DECODE_F128 (R64). -/
def execDecodeF128 (a : Word) (s : State) : Host.Outcome State Fault Refusal :=
  .next (s.respond (decodeF128 a))

/-- ENCODE_F128 (R65). -/
def execEncodeF128 (sign : Bool) (e : BitVec 15) (fraction : BitVec 112) (s : State) :
    Host.Outcome State Fault Refusal :=
  .next (s.respond (encodeF128 sign e fraction))

end Sys2Proof.Machine
end

