-- ==== Sys2Proof/Machine/Multiply.lean ====
section
/-! DEFINITION. fp_multiplier_quad: MUL_QPO (44_mul.md). -/
namespace Sys2Proof.Machine

/-- `sp`: the sign of a product or a quotient (44_mul.md R100, 45_div.md R105). -/
def signXor (a b : Word) : Bool :=
  signBit a ^^ signBit b

/-- The decision table of R100. -/
def multiply (a b : Word) : Word :=
  let sp := signXor a b
  match selectNaN [a, b] with
  | some x => x
  | none =>
    if (isInf a && isZero b) || (isZero a && isInf b) then dNaN
    else if isInf a || isInf b then withSign sp pInf
    else fromReal (value a * value b) sp

/-- `mul_qpo(a, b)` (R102). -/
def mulQpo (a b : Word) : Response :=
  { r := multiply a b }

/-- MUL_QPO (R102). -/
def execMulQpo (a b : Word) (s : State) : Host.Outcome State Fault Refusal :=
  .next (s.respond (mulQpo a b))

end Sys2Proof.Machine
end

