-- ==== Sys2Proof/Machine/Divide.lean ====
section
/-! DEFINITION. fp_divider_quad: DIV_QPO (45_div.md). -/
namespace Sys2Proof.Machine

/-- The decision table of R105, which is followed where R104's quoted one-ULP clause disagrees (DESIGN CHOICE, log entry 19). -/
def divide (a b : Word) : Word :=
  let sp := signXor a b
  match selectNaN [a, b] with
  | some x => x
  | none =>
    if isZero a && isZero b then dNaN
    else if isInf a && isInf b then dNaN
    else if isInf a then withSign sp pInf
    else if isInf b then signWord sp
    else if isZero b then withSign sp pInf
    else if isZero a then signWord sp
    else fromReal (value a / value b) sp

/-- `div_qpo(a, b)` (R107). -/
def divQpo (a b : Word) : Response :=
  { r := divide a b }

/-- DIV_QPO (R107): "A zero divisor is a decision-table case, never a fault". -/
def execDivQpo (a b : Word) (s : State) : Host.Outcome State Fault Refusal :=
  .next (s.respond (divQpo a b))

end Sys2Proof.Machine
end

