-- ==== Sys2Proof/Machine/FusedMultiplyAdd.lean ====
section
/-! DEFINITION. fp_fma_quad: FMA_QPO (46_fma.md). -/
namespace Sys2Proof.Machine

/-- The decision table of R110; the exact zero's sign is that of R111. -/
def fusedMultiplyAdd (a b c : Word) : Word :=
  let sp := signXor a b
  let sc := signBit c
  match selectNaN [a, b, c] with
  | some x => x
  | none =>
    if (isInf a && isZero b) || (isZero a && isInf b) then dNaN
    else if (isInf a || isInf b) && isInf c && sc != sp then dNaN
    else if isInf a || isInf b then withSign sp pInf
    else if isInf c then c
    else fromReal (value a * value b + value c) (sp && sc)

/-- `fma_qpo(a, b, c)` (R112). -/
def fmaQpo (a b c : Word) : Response :=
  { r := fusedMultiplyAdd a b c }

/-- FMA_QPO (R112). -/
def execFmaQpo (a b c : Word) (s : State) : Host.Outcome State Fault Refusal :=
  .next (s.respond (fmaQpo a b c))

end Sys2Proof.Machine
end

