-- ==== Sys2Proof/Machine/Flags.lean ====
section
/-! DEFINITION. The computations of the output `f`: "sticky, nonzero remainder, lost bits, or sign" (10_state.md R19). The
block has no status flag (R22); the sign result is `signBit` of Operands.lean. -/
namespace Sys2Proof.Machine

/-- The sticky bit of a right shift by `n`: the OR of the bits shifted out below; for `n` at least the width, of all bits
(41_integer_primitives.md R75 and R76). -/
def stickyRight {w : Nat} (v : BitVec w) (n : Nat) : Bool :=
  if w ≤ n then v != 0 else v.toNat % 2 ^ n != 0

/-- The lost-bits flag of a left shift by `n`: the OR of the bits shifted out at the top; for `n` at least the width, of all
bits (41_integer_primitives.md R77 and R78). -/
def lostLeft {w : Nat} (v : BitVec w) (n : Nat) : Bool :=
  if w ≤ n then v != 0 else v.toNat >>> (w - n) != 0

/-- The nonzero-remainder signal of the wide divide (41_integer_primitives.md R72). -/
def nonzeroRemainder (n d : Nat) : Bool :=
  n - n / d * d != 0

end Sys2Proof.Machine
end

