-- ==== Sys2Proof/Machine/Shifter.lean ====
section
/-! DEFINITION. aligning_shifter: SRS_128, SRS_256, SLS_128 and SLS_256 (41_integer_primitives.md R75 to R79). -/
namespace Sys2Proof.Machine

/-- The value of `shift_right_sticky` at any width: 0 for an amount of at least the width (R75, R76, R79). -/
def shiftRight {w : Nat} (v : BitVec w) (n : Nat) : BitVec w :=
  if w ≤ n then 0 else v >>> n

/-- The value of the left-shift dual at any width: 0 for an amount of at least the width (R77, R78, R79). -/
def shiftLeft {w : Nat} (v : BitVec w) (n : Nat) : BitVec w :=
  if w ≤ n then 0 else v <<< n

/-- `shift_right_sticky` on 128 bits (R75). -/
def srs128 (a : Word) (amt : Amount) : Response :=
  { r := shiftRight a (amount amt), f := stickyRight a (amount amt) }

/-- `shift_right_sticky` on 256 bits (R76). -/
def srs256 (a b : Word) (amt : Amount) : Response :=
  wideResponse (shiftRight (join a b) (amount amt)) (stickyRight (join a b) (amount amt))

/-- The left-shift dual on 128 bits (R77). -/
def sls128 (a : Word) (amt : Amount) : Response :=
  { r := shiftLeft a (amount amt), f := lostLeft a (amount amt) }

/-- The left-shift dual on 256 bits (R78). -/
def sls256 (a b : Word) (amt : Amount) : Response :=
  wideResponse (shiftLeft (join a b) (amount amt)) (lostLeft (join a b) (amount amt))

/-- SRS_128 (R75). -/
def execSrs128 (a : Word) (amt : Amount) (s : State) : Host.Outcome State Fault Refusal :=
  .next (s.respond (srs128 a amt))

/-- SRS_256 (R76). -/
def execSrs256 (a b : Word) (amt : Amount) (s : State) : Host.Outcome State Fault Refusal :=
  .next (s.respond (srs256 a b amt))

/-- SLS_128 (R77). -/
def execSls128 (a : Word) (amt : Amount) (s : State) : Host.Outcome State Fault Refusal :=
  .next (s.respond (sls128 a amt))

/-- SLS_256 (R78). -/
def execSls256 (a b : Word) (amt : Amount) (s : State) : Host.Outcome State Fault Refusal :=
  .next (s.respond (sls256 a b amt))

end Sys2Proof.Machine
end

