-- ==== Sys2Proof/Machine/WideInteger.lean ====
section
/-! DEFINITION. wide_multiply_128x128 and wide_divide_256div128: MUL_128X128 and DIV_256BY128
(41_integer_primitives.md). -/
namespace Sys2Proof.Machine

/-- The exact 256-bit product (R70). -/
def mul128x128 (a b : Word) : Response :=
  wideResponse (BitVec.ofNat 256 (a.toNat * b.toNat)) false

/-- The wide divide (R72): the quotient with the remainder folded into bit 0, and the nonzero-remainder signal. A request that
breaks the precondition has no value, only a fault (R73). -/
def div256by128 (a b c : Word) : Except FaultKind Response :=
  let n := (join a b).toNat
  let d := c.toNat
  if d = 0 ∨ d ≤ a.toNat then .error .dividePrecondition
  else
    let nz := nonzeroRemainder n d
    .ok { r := BitVec.ofNat 128 (n / d ||| nz.toNat), f := nz }

/-- MUL_128X128 (R70). -/
def execMul128x128 (a b : Word) (s : State) : Host.Outcome State Fault Refusal :=
  .next (s.respond (mul128x128 a b))

/-- DIV_256BY128 (R72): where the precondition is broken, the fault is taken (R73). -/
def execDiv256by128 (a b c : Word) (s : State) : Host.Outcome State Fault Refusal :=
  .next (s.answer (div256by128 a b c))

end Sys2Proof.Machine
end

