-- ==== Sys2Proof/Machine/Dispatch.lean ====
section
/-! DEFINITION. The meaning of each instruction: one arm per row of the op-select map (30_encoding.md R52). -/
namespace Sys2Proof.Machine

def exec (i : Instr) (s : State) : Host.Outcome State Fault Refusal :=
  match i with
  | .addQpo a b => Sys2Proof.Machine.execAddQpo a b s
  | .subQpo a b => Sys2Proof.Machine.execSubQpo a b s
  | .mulQpo a b => Sys2Proof.Machine.execMulQpo a b s
  | .divQpo a b => Sys2Proof.Machine.execDivQpo a b s
  | .fmaQpo a b c => Sys2Proof.Machine.execFmaQpo a b c s
  | .classF128 a => Sys2Proof.Machine.execClassF128 a s
  | .decodeF128 a => Sys2Proof.Machine.execDecodeF128 a s
  | .encodeF128 sign e f => Sys2Proof.Machine.execEncodeF128 sign e f s
  | .mul128x128 a b => Sys2Proof.Machine.execMul128x128 a b s
  | .div256by128 a b c => Sys2Proof.Machine.execDiv256by128 a b c s
  | .srs128 a amt => Sys2Proof.Machine.execSrs128 a amt s
  | .srs256 a b amt => Sys2Proof.Machine.execSrs256 a b amt s
  | .sls128 a amt => Sys2Proof.Machine.execSls128 a amt s
  | .sls256 a b amt => Sys2Proof.Machine.execSls256 a b amt s

end Sys2Proof.Machine
end

