-- ==== Sys2Proof/Machine/Step.lean ====
section
/-! DEFINITION. One step: the oldest request presented is accepted, decoded and answered (10_state.md R17). -/
namespace Sys2Proof.Machine

/-- One request, one response. `IllegalOperation` is decided first, "from `op` alone before any operand is read"
(60_exceptions.md R124); then the operation runs. With no request presented there is no response to give (log entry 3). -/
def step (s : State) : Host.Outcome State Fault Refusal :=
  match s.accept with
  | none => .fault .noRequest
  | some (q, s') =>
    match decode q.word with
    | .ok i => exec i s'
    | .error k => .next (s'.takeFault k)

/-- `s` with the table's word presented as the very next request (log entries 2 and 11): the block fetches nothing
(20_memory.md R46), so the word goes on the input ports, ahead of any request waiting. -/
def State.withFetchWord (s : State) (nbits w : Nat) : State :=
  { s with requests := Request.ofWord (tableWord nbits w) :: s.requests }

end Sys2Proof.Machine
end

