-- ==== Sys2Proof/Machine/Datapath.lean ====
section
/-! DEFINITION. The reference datapaths, "one sufficient way to compute" the results (42_round_to_odd.md R91): `Finish` (R88) and
the four cores (43_add_sub.md R97, 44_mul.md R103, 45_div.md R108, 46_fma.md R113), built from the block's own primitives.
`exec` does not run them; they are stated to give the results of the decision tables (log entry 13). -/
namespace Sys2Proof.Machine

/-- `bitlen(v)`, "the number of bits of the natural `v`" (00_scope.md R13). -/
def bitlen (v : Nat) : Nat :=
  if v = 0 then 0 else v.log2 + 1

/-- The `E'` of R88: the exponent of `M * 2^k`'s top bit, "clamp at the denormal floor". -/
def finishBinade (m : Nat) (k : Int) : Int :=
  max ((bitlen m : Int) - 1 + k) (-16382)

/-- The `sh` of R88: "bits of M below the result's LSB". -/
def finishShift (m : Nat) (k : Int) : Int :=
  finishBinade m k - 112 - k

/-- `Finish(s, M, k, st)` (42_round_to_odd.md R88). -/
def finish (s : Bool) (m : Nat) (k : Int) (st : Bool) : Word :=
  if 16384 ≤ (bitlen m : Int) - 1 + k then withSign s maxF
  else
    let sh := finishShift m k
    let t : Nat := if 0 ≤ sh then m >>> sh.toNat else m <<< (-sh).toNat
    let lost : Bool := decide (0 ≤ sh) && m % 2 ^ sh.toNat != 0
    packResult s (finishBinade m k) (t ||| (st || lost).toNat)

/-- `max(e, 1)`: the exponent a core computes with (R97). -/
def coreExponent (v : Word) : Int :=
  max ((decodeFields v).exponent.toNat : Int) 1

/-- The significand a core computes with (R97). -/
def coreSignificand (v : Word) : Nat :=
  (decodeFields v).significand.toNat

/-- One aligned operand of the adder: sign, exponent and significand. -/
structure Addend where
  sign : Bool
  exp  : Int
  sig  : Nat
  deriving DecidableEq, Repr

/-- `(Ea, ma) < (Eb, mb) lexicographically` (43_add_sub.md R97). -/
def Addend.below (x y : Addend) : Bool :=
  decide (x.exp < y.exp) || (decide (x.exp = y.exp) && decide (x.sig < y.sig))

/-- The adder's datapath after the swap: align, jam the sticky, add or subtract, finish (R97). -/
def addAligned (x y : Addend) : Word :=
  let d := (x.exp - y.exp).toNat
  let big := x.sig <<< 3
  let aligned := srs128 (BitVec.ofNat 128 (y.sig <<< 3)) (BitVec.ofNat 32 d)
  let jammed := aligned.r.toNat ||| aligned.f.toNat
  let v := if x.sign = y.sign then big + jammed else big - jammed
  if v = 0 then signWord (x.sign && y.sign)
  else finish x.sign v (x.exp - 16383 - 112 - 3) false

/-- `AddCore(a, b, sb')` for finite `a` and `b` (R97). -/
def addCore (a b : Word) (sb : Bool) : Word :=
  let x : Addend := ⟨signBit a, coreExponent a, coreSignificand a⟩
  let y : Addend := ⟨sb, coreExponent b, coreSignificand b⟩
  if x.below y then addAligned y x else addAligned x y

/-- The exact product of two significands on the wide multiply: `hi ‖ lo` (44_mul.md R103). -/
def wideProduct (ma mb : Nat) : Nat :=
  let p := mul128x128 (BitVec.ofNat 128 ma) (BitVec.ofNat 128 mb)
  (join p.r p.r2).toNat

/-- The scale of the exact product: `Ea + Eb - 2*16383 - 224` (R103). -/
def productScale (a b : Word) : Int :=
  coreExponent a + coreExponent b - 2 * 16383 - 224

/-- `MulCore(a, b)` for finite nonzero `a` and `b` (R103). -/
def mulCore (a b : Word) : Word :=
  finish (signXor a b) (wideProduct (coreSignificand a) (coreSignificand b)) (productScale a b) false

/-- The left shift that renormalises a significand: `113 - bitlen(m)` (45_div.md R108). -/
def renormShift (m : Nat) : Nat :=
  113 - bitlen m

/-- The renormalised significand: bit 112 set (R108). -/
def renormSignificand (v : Word) : Nat :=
  coreSignificand v <<< renormShift (coreSignificand v)

/-- The exponent that goes with the renormalised significand (R108). -/
def renormExponent (v : Word) : Int :=
  coreExponent v - renormShift (coreSignificand v)

/-- `DivCore(a, b)` for finite nonzero `a` and `b` (R108): a fault if the wide divide's precondition were broken, which R109 says
never happens. -/
def divCore (a b : Word) : Except FaultKind Word :=
  let n : Word256 := BitVec.ofNat 256 (renormSignificand a <<< 115)
  match div256by128 (hiHalf n) (loHalf n) (BitVec.ofNat 128 (renormSignificand b)) with
  | .ok p => .ok (finish (signXor a b) p.r.toNat (renormExponent a - renormExponent b - 115) false)
  | .error k => .error k

/-- A nonzero addend of the fused sum: `(-1)^sign * sig * 2^scale` (46_fma.md R113). -/
structure Term where
  sign  : Bool
  sig   : Nat
  scale : Int
  deriving DecidableEq, Repr

/-- The exponent of a term's top bit (R113). -/
def Term.top (x : Term) : Int :=
  x.scale + bitlen x.sig - 1

/-- The fused sum of two nonzero terms, `h` the one with the higher top bit (R113). -/
def fuseTerms (h j : Term) : Word :=
  if j.top < h.scale - 2 then
    finish h.sign (if h.sign = j.sign then h.sig <<< 3 + 1 else h.sig <<< 3 - 1) (h.scale - 3) false
  else
    let low := min h.scale j.scale
    let x : Int := (if h.sign then -1 else 1) * (h.sig <<< (h.scale - low).toNat : Nat)
      + (if j.sign then -1 else 1) * (j.sig <<< (j.scale - low).toNat : Nat)
    if x = 0 then pZero else finish (decide (x < 0)) x.natAbs low false

/-- `FmaCore(a, b, c)` for finite `a`, `b` and `c` (R113). -/
def fmaCore (a b c : Word) : Word :=
  let sp := signXor a b
  let sc := signBit c
  if isZero a || isZero b then
    if isZero c then signWord (sp && sc) else c
  else
    let p : Term := ⟨sp, wideProduct (coreSignificand a) (coreSignificand b), productScale a b⟩
    if isZero c then finish sp p.sig p.scale false
    else
      let t : Term := ⟨sc, coreSignificand c, coreExponent c - 16383 - 112⟩
      if t.top ≤ p.top then fuseTerms p t else fuseTerms t p

end Sys2Proof.Machine
end

