-- ==== Sys2Proof/Machine/Assembler.lean ====
section
/-! DEFINITION. The spec's textual form of a request, less its characters (30_encoding.md R57 and R58): a mnemonic with its
operands in port order assembles to exactly one request, and the three pseudo-operations expand to one each (log entry 16). -/
namespace Sys2Proof.Machine

/-- The mnemonics of R52 and the pseudo-operations of R58. -/
inductive Mnemonic where
  | ADD_QPO
  | SUB_QPO
  | MUL_QPO
  | DIV_QPO
  | FMA_QPO
  | CLASS_F128
  | DECODE_F128
  | ENCODE_F128
  | MUL_128X128
  | DIV_256BY128
  | SRS_128
  | SRS_256
  | SLS_128
  | SLS_256
  | NEG_QPO
  | SQR_128
  | DIV_128BY128
  deriving DecidableEq, Repr

/-- `r = NEG_QPO a`: "not a sign flip. It is the subtraction it expands to" (R58). -/
def negQpo (a : Word) : Instr :=
  .subQpo nZero a

/-- `(r, r2) = SQR_128 a` (R58). -/
def sqr128 (a : Word) : Instr :=
  .mul128x128 a a

/-- `(r, f) = DIV_128BY128 n, d` (R58): "the 128÷128-bit case". -/
def div128by128 (n d : Word) : Instr :=
  .div256by128 0 n d

/-- A shift amount operand: it must fit the 32 bits of `amt`. -/
def asAmount (v : Word) : Option Amount :=
  if v.toNat < 2 ^ 32 then some (v.setWidth 32) else none

/-- A line assembles to one request: "`op` from the mnemonic, the input ports from the operands, and 0 on every port the operation
does not read" (R57), the operands in the port order of R53, each whole on its port. `none` where the number of operands is not
the row's, or an amount does not fit its port. -/
def assemble (m : Mnemonic) (operands : List Word) : Option Request :=
  match m, operands with
  | .ADD_QPO, [a, b] => some { op := 0x0, a := a, b := b, c := 0, amt := 0 }
  | .SUB_QPO, [a, b] => some { op := 0x1, a := a, b := b, c := 0, amt := 0 }
  | .MUL_QPO, [a, b] => some { op := 0x2, a := a, b := b, c := 0, amt := 0 }
  | .DIV_QPO, [a, b] => some { op := 0x3, a := a, b := b, c := 0, amt := 0 }
  | .FMA_QPO, [a, b, c] => some { op := 0x4, a := a, b := b, c := c, amt := 0 }
  | .CLASS_F128, [a] => some { op := 0x5, a := a, b := 0, c := 0, amt := 0 }
  | .DECODE_F128, [a] => some { op := 0x6, a := a, b := 0, c := 0, amt := 0 }
  | .ENCODE_F128, [sign, exp, frac] => some { op := 0x7, a := sign, b := exp, c := frac, amt := 0 }
  | .MUL_128X128, [a, b] => some { op := 0x8, a := a, b := b, c := 0, amt := 0 }
  | .DIV_256BY128, [hi, lo, d] => some { op := 0x9, a := hi, b := lo, c := d, amt := 0 }
  | .SRS_128, [a, n] => (asAmount n).map (fun amt => { op := 0xA, a := a, b := 0, c := 0, amt := amt })
  | .SRS_256, [hi, lo, n] => (asAmount n).map (fun amt => { op := 0xB, a := hi, b := lo, c := 0, amt := amt })
  | .SLS_128, [a, n] => (asAmount n).map (fun amt => { op := 0xC, a := a, b := 0, c := 0, amt := amt })
  | .SLS_256, [hi, lo, n] => (asAmount n).map (fun amt => { op := 0xD, a := hi, b := lo, c := 0, amt := amt })
  | .NEG_QPO, [a] => some (negQpo a).request
  | .SQR_128, [a] => some (sqr128 a).request
  | .DIV_128BY128, [n, d] => some (div128by128 n d).request
  | _, _ => none

end Sys2Proof.Machine
end

