-- ==== Sys2Proof/Machine/SourceLine.lean ====
section
/-! DEFINITION. The spec's textual form of a request and its programs (30_encoding.md R57, 60_exceptions.md R129): a line of text,
the request it assembles to, and a caller that issues lines in order and holds the values `t0`, `t1`, ... The caller's values
are no state of the block (10_state.md R20; log entry 17). -/
namespace Sys2Proof.Machine

/-- The name of a caller-held value, its characters in order. -/
abbrev HeldName := List Char

/-- An operand: "either the name of a caller-held value (`t0`, `t1`, ...) or a literal" (R57). -/
inductive LineOperand where
  | held (n : HeldName)
  | literal (v : Nat)
  deriving DecidableEq, Repr

/-- A line: "Outputs come first, then `=`, the mnemonic and the inputs in the port order of rule R53" (R57). -/
structure SourceLine where
  targets  : List HeldName
  mnemonic : Mnemonic
  operands : List LineOperand
  deriving DecidableEq, Repr

/-- An output port that a line can name (10_state.md R19). -/
inductive OutputPort where
  | r
  | r2
  | f
  deriving DecidableEq, Repr

/-- The outputs a line of each mnemonic names, in order (the forms of R57 and R58). -/
def Mnemonic.outputs (m : Mnemonic) : List OutputPort :=
  match m with
  | .ADD_QPO | .SUB_QPO | .MUL_QPO | .DIV_QPO | .FMA_QPO | .ENCODE_F128 | .NEG_QPO => [.r]
  | .CLASS_F128 | .DIV_256BY128 | .SRS_128 | .SLS_128 | .DIV_128BY128 => [.r, .f]
  | .MUL_128X128 | .SQR_128 => [.r, .r2]
  | .DECODE_F128 | .SRS_256 | .SLS_256 => [.r, .r2, .f]

/-- The values the caller holds, by name, the newest first: the newest of one name is the one held (DESIGN CHOICE, log entry 17). -/
abbrev Held := List (HeldName × Word)

/-- The word of an operand: a held value, or a literal that fits a port. -/
def LineOperand.word (h : Held) (o : LineOperand) : Option Word :=
  match o with
  | .held n => (h.find? (fun p => p.1 == n)).map Prod.snd
  | .literal v => if v < 2 ^ 128 then some (BitVec.ofNat 128 v) else none

/-- "A line assembles to one request" (R57); `none` where a name is not held, a literal does not fit its port, or the numbers of
outputs and operands are not the row's. -/
def SourceLine.request (h : Held) (l : SourceLine) : Option Request :=
  if l.targets.length ≠ l.mnemonic.outputs.length then none
  else (l.operands.mapM (LineOperand.word h)).bind (assemble l.mnemonic)

/-- The word on an output port, the bit `f` zero-extended. -/
def OutputPort.word (s : State) (p : OutputPort) : Word :=
  match p with
  | .r => s.r
  | .r2 => s.r2
  | .f => (BitVec.ofBool s.f).setWidth 128

/-- The caller takes a line's outputs from the ports and holds them under the line's names. -/
def SourceLine.receive (h : Held) (l : SourceLine) (s : State) : Held :=
  (l.targets.zip (l.mnemonic.outputs.map (OutputPort.word s))).reverse ++ h

/-- Steps that answer the `n` oldest requests; a stop ends them. -/
def answerOldest (n : Nat) (s : State) : Host.Outcome State Fault Refusal :=
  match n with
  | 0 => .next s
  | n + 1 =>
    match step s with
    | .next t => answerOldest n t
    | .fault k => .fault k
    | .refused k => .refused k

/-- The caller presents a request and waits for its response: whatever waits ahead of it is answered first (20_memory.md R43), and
the last of the steps delivers the response of this request. -/
def State.awaitResponse (s : State) (q : Request) : Host.Outcome State Fault Refusal :=
  answerOldest (s.requests.length + 1) (s.present q)

/-- A program: "a sequence of requests the caller presents" (60_exceptions.md R129). Each line is presented only once the response of
the line before it has been delivered, as a line that uses that response must be (70_reset_and_hazards.md R141). That the caller
waits even where no operand needs it, and that after `err = 1`, which it does not look at, it holds the unspecified outputs under
the line's names and goes on, is the model's choice (DESIGN CHOICE, log entry 18): what the caller does then "is outside the block"
(60_exceptions.md R126). -/
def runLines (ls : List SourceLine) (h : Held) (s : State) : Option (Held × State) :=
  match ls with
  | [] => some (h, s)
  | l :: rest =>
    match l.request h with
    | none => none
    | some q =>
      match s.awaitResponse q with
      | .next t => runLines rest (l.receive h t) t
      | .fault _ => none
      | .refused _ => none

/-! ### From characters to lines -/

/-- What a line of text is made of. -/
inductive Token where
  | word (cs : List Char)
  | comma
  | equals
  | opening
  | closing
  deriving DecidableEq, Repr

/-- Close the word read so far, its characters newest first. -/
def Token.close (acc : List Char) (ts : List Token) : List Token :=
  if acc.isEmpty then ts else .word acc.reverse :: ts

/-- Split text into tokens; blanks separate. -/
def tokens (acc : List Char) (text : List Char) : List Token :=
  match text with
  | [] => Token.close acc []
  | c :: cs =>
    if c = ' ' then Token.close acc (tokens [] cs)
    else if c = ',' then Token.close acc (.comma :: tokens [] cs)
    else if c = '=' then Token.close acc (.equals :: tokens [] cs)
    else if c = '(' then Token.close acc (.opening :: tokens [] cs)
    else if c = ')' then Token.close acc (.closing :: tokens [] cs)
    else tokens (c :: acc) cs

/-- A digit's value. -/
def digit (c : Char) : Nat :=
  if '0' ≤ c ∧ c ≤ '9' then c.toNat - '0'.toNat
  else if 'A' ≤ c ∧ c ≤ 'F' then c.toNat - 'A'.toNat + 10
  else if 'a' ≤ c ∧ c ≤ 'f' then c.toNat - 'a'.toNat + 10
  else 16

/-- A number in the given base, at least one digit; `_` separates the halves of a hexadecimal literal (00_scope.md R12). -/
def number (base : Nat) (cs : List Char) : Option Nat :=
  let ds := if base = 16 then cs.filter (fun c => c ≠ '_') else cs
  if ds.isEmpty || ds.any (fun c => base ≤ digit c) then none
  else some (ds.foldl (fun n c => n * base + digit c) 0)

/-- The name of a caller-held value: a letter, then letters, digits or `_`, as in `t0`, `r`, `r2`, `hi` (R57; the names of
95_test_vectors.md). -/
def heldName (cs : List Char) : Option HeldName :=
  if (cs.take 1).any Char.isAlpha && cs.all (fun c => c.isAlphanum || c == '_') then some cs else none

/-- An operand: a name, or "a literal in the notation of 00_scope.md rule R12, written `#0x...` or `#<decimal>`" (R57). -/
def operandText (cs : List Char) : Option LineOperand :=
  if cs.take 3 = ['#', '0', 'x'] then (number 16 (cs.drop 3)).map .literal
  else if cs.take 1 = ['#'] then (number 10 (cs.drop 1)).map .literal
  else (heldName cs).map .held

/-- A mnemonic's text (R52, R58). -/
def Mnemonic.text (m : Mnemonic) : String :=
  match m with
  | .ADD_QPO => "ADD_QPO"
  | .SUB_QPO => "SUB_QPO"
  | .MUL_QPO => "MUL_QPO"
  | .DIV_QPO => "DIV_QPO"
  | .FMA_QPO => "FMA_QPO"
  | .CLASS_F128 => "CLASS_F128"
  | .DECODE_F128 => "DECODE_F128"
  | .ENCODE_F128 => "ENCODE_F128"
  | .MUL_128X128 => "MUL_128X128"
  | .DIV_256BY128 => "DIV_256BY128"
  | .SRS_128 => "SRS_128"
  | .SRS_256 => "SRS_256"
  | .SLS_128 => "SLS_128"
  | .SLS_256 => "SLS_256"
  | .NEG_QPO => "NEG_QPO"
  | .SQR_128 => "SQR_128"
  | .DIV_128BY128 => "DIV_128BY128"

/-- Every mnemonic. -/
def Mnemonic.all : List Mnemonic :=
  [.ADD_QPO, .SUB_QPO, .MUL_QPO, .DIV_QPO, .FMA_QPO, .CLASS_F128, .DECODE_F128, .ENCODE_F128, .MUL_128X128, .DIV_256BY128,
    .SRS_128, .SRS_256, .SLS_128, .SLS_256, .NEG_QPO, .SQR_128, .DIV_128BY128]

/-- The mnemonic a word spells. -/
def mnemonicText (cs : List Char) : Option Mnemonic :=
  Mnemonic.all.find? (fun m => m.text.toList == cs)

/-- Words separated by commas, up to the end of the tokens. -/
def commaList (ts : List Token) : Option (List (List Char)) :=
  match ts with
  | [.word w] => some [w]
  | .word w :: .comma :: rest => (commaList rest).map (w :: ·)
  | _ => none

/-- The tokens before and after the equals sign. -/
def splitEquals (ts : List Token) : Option (List Token × List Token) :=
  match ts with
  | [] => none
  | .equals :: rest => some ([], rest)
  | t :: rest => (splitEquals rest).map (fun p => (t :: p.1, p.2))

/-- The outputs' names: one name, or a list in parentheses (R57). -/
def targetsText (ts : List Token) : Option (List HeldName) :=
  match ts with
  | [.word w] => (heldName w).map ([·])
  | .opening :: rest =>
    if rest.getLast? = some .closing then (commaList rest.dropLast).bind (fun ws => ws.mapM heldName) else none
  | _ => none

/-- A line of text (R57); `none` where the text is no line. -/
def readLine (text : String) : Option SourceLine :=
  match splitEquals (tokens [] text.toList) with
  | some (left, .word m :: right) =>
    match targetsText left, mnemonicText m, (commaList right).bind (fun ws => ws.mapM operandText) with
    | some targets, some mnemonic, some operands => some ⟨targets, mnemonic, operands⟩
    | _, _, _ => none
  | _ => none

end Sys2Proof.Machine
end

