-- ==== Sys2Proof/Machine/Execute.lean ====
section
/-! DEFINITION. The block as the spec's one total function `Execute : Request -> Response ⊎ Fault` (10_state.md R17), without a
state. The machine's step is stated to agree with it. -/
namespace Sys2Proof.Machine

/-- The outcome of an instruction: a function of its own operands alone (10_state.md R16). -/
def outcome (i : Instr) : Except FaultKind Response :=
  match i with
  | .addQpo a b => .ok (addQpo a b)
  | .subQpo a b => .ok (subQpo a b)
  | .mulQpo a b => .ok (mulQpo a b)
  | .divQpo a b => .ok (divQpo a b)
  | .fmaQpo a b c => .ok (fmaQpo a b c)
  | .classF128 a => .ok (classF128 a)
  | .decodeF128 a => .ok (decodeF128 a)
  | .encodeF128 s e f => .ok (encodeF128 s e f)
  | .mul128x128 a b => .ok (mul128x128 a b)
  | .div256by128 a b c => div256by128 a b c
  | .srs128 a amt => .ok (srs128 a amt)
  | .srs256 a b amt => .ok (srs256 a b amt)
  | .sls128 a amt => .ok (sls128 a amt)
  | .sls256 a b amt => .ok (sls256 a b amt)

/-- `Execute` (R17), with the order of checks of 60_exceptions.md R124: `IllegalOperation` from `op` alone, then the operation's
own outcome. -/
def execute (q : Request) : Except FaultKind Response :=
  match decode q.word with
  | .ok i => outcome i
  | .error k => .error k

end Sys2Proof.Machine
end

