-- ==== Sys2Proof/Safety.lean ====
section
/-! DEFINITION. The terms claims are stated in: what it means that the outputs answer a request, that an instruction results in a
word, and that a run does not stop. -/
namespace Sys2Proof.Machine

/-- The outputs of `t` are the response of `q` (10_state.md R17 and R19): `r`, `r2`, `f` as Execute gives them with `err = 0`, or
`err = 1` with the fault's kind, the other outputs then unspecified (60_exceptions.md R122). -/
def Answers (t : State) (q : Request) : Prop :=
  match execute q with
  | .ok p => t.r = p.r ∧ t.r2 = p.r2 ∧ t.f = p.f ∧ t.err = false ∧ t.faultKind = none
  | .error k => t.err = true ∧ t.faultKind = some k

/-- The invariant of the output ports: they hold the response of the request they answer, whatever came before (10_state.md R16,
70_reset_and_hazards.md R140). Before the first response nothing is said of them (R34). -/
def OutputsAnswer (s : State) : Prop :=
  ∀ q, s.answered = some q → Answers s q

/-- In EVERY state `exec i` answers a next state: `w` on `r`, 0 on `r2` and `f`, `err = 0` (30_encoding.md R53 and R54 for the
operations that write `r` alone), and every other field of the state as it was. -/
def ResultsIn (i : Instr) (w : Word) : Prop :=
  ∀ s : State, exec i s = .next { s with r := w, r2 := 0, f := false, err := false, faultKind := none }

/-- `exec i` in `s` answers a next state that reports the fault `k` (60_exceptions.md R121 to R123): `err = 1`, the kind kept, no
request dropped or added, and nothing said of `r`, `r2` and `f`. -/
def FaultsWith (i : Instr) (s : State) (k : FaultKind) : Prop :=
  ∃ t : State, exec i s = .next t ∧ t.err = true ∧ t.faultKind = some k ∧ t.requests = s.requests ∧ t.answered = s.answered

/-- A safe run: `n` steps, none of which stops. -/
def SafeRun (s : State) (n : Nat) : Prop :=
  ∃ t : State, Host.Core.run Sys2Proof.core n s = .next t

end Sys2Proof.Machine
end

