-- ==== Sys2Proof/Certificates/Slice0/Obligations.lean ====
section
/-! DEFINITION. The statements for the provers. Each docstring names the rule of spec/ that it formalises. -/
open Sys2Proof Sys2Proof.Machine

/-! ### Encoding -/

/-- Decode and encode agree on every instruction, every operand at every value (30_encoding.md R48, R52, R53, R56). -/
def Obligations.EncodeThenDecode : Prop :=
  ∀ i : Instr, i.wellFormed = true → decode (encode i) = .ok i

/-- Encoding a decoded instruction gives back exactly the bits its operation reads, every other bit 0 (R53, R54, R57). -/
def Obligations.DecodeThenEncode : Prop :=
  ∀ (w : RequestWord) (i : Instr), decode w = .ok i → encode i = w &&& readMask (w.extractLsb' 0 4)

/-- The packing of the ports into one word, both ways (R48). -/
def Obligations.RequestWordLayout : Prop :=
  (∀ q : Request,
    q.word.toNat = q.a.toNat * 2 ^ 292 + q.b.toNat * 2 ^ 164 + q.c.toNat * 2 ^ 36 + q.amt.toNat * 2 ^ 4 + q.op.toNat ∧
    Request.ofWord q.word = q) ∧
  (∀ w : RequestWord, (Request.ofWord w).word = w)

/-- Decoding is total, `op` alone selects, and exactly the reserved values are refused (R49, R56). -/
def Obligations.DecodeTotalByOp : Prop :=
  ∀ w : RequestWord,
    (w.toNat % 16 ≤ 0xD → ∃ i : Instr, decode w = .ok i ∧ i.wellFormed = true ∧ i.op.toNat = w.toNat % 16) ∧
    (0xD < w.toNat % 16 → decode w = .error .illegalOperation)

/-- The operand ports of each row of the op-select map (R52, and the column `reads` of R53). -/
def Obligations.OperandPorts : Prop :=
  ∀ q : Request,
    (q.op = 0x0 → decode q.word = .ok (.addQpo q.a q.b)) ∧
    (q.op = 0x1 → decode q.word = .ok (.subQpo q.a q.b)) ∧
    (q.op = 0x2 → decode q.word = .ok (.mulQpo q.a q.b)) ∧
    (q.op = 0x3 → decode q.word = .ok (.divQpo q.a q.b)) ∧
    (q.op = 0x4 → decode q.word = .ok (.fmaQpo q.a q.b q.c)) ∧
    (q.op = 0x5 → decode q.word = .ok (.classF128 q.a)) ∧
    (q.op = 0x6 → decode q.word = .ok (.decodeF128 q.a)) ∧
    (q.op = 0x7 → decode q.word =
      .ok (.encodeF128 (q.a.getLsbD 0) (q.b.extractLsb' 0 15) (q.c.extractLsb' 0 112))) ∧
    (q.op = 0x8 → decode q.word = .ok (.mul128x128 q.a q.b)) ∧
    (q.op = 0x9 → decode q.word = .ok (.div256by128 q.a q.b q.c)) ∧
    (q.op = 0xA → decode q.word = .ok (.srs128 q.a q.amt)) ∧
    (q.op = 0xB → decode q.word = .ok (.srs256 q.a q.b q.amt)) ∧
    (q.op = 0xC → decode q.word = .ok (.sls128 q.a q.amt)) ∧
    (q.op = 0xD → decode q.word = .ok (.sls256 q.a q.b q.amt))

/-- Request words written out by the spec (95_test_vectors.md P1, P3 and P5, V-ILL-1) decode to what they stand for. -/
def Obligations.WrittenWordsDecode : Prop :=
  decode 0xBFFF80000000000000000000000000000000000000000000000000000000000000000000000000000000000000000000000000005 =
      .ok (.classF128 0xBFFF8000000000000000000000000000) ∧
  decode 0x400180000000000000000000000000004000800000000000000000000000000000000000000000000000000000000000000000003 =
      .ok (.divQpo 0x40018000000000000000000000000000 0x40008000000000000000000000000000) ∧
  decode 0x000000000000000000000000000000050000000000000000000000000000000000000000000000000000000000000003000000009 =
      .ok (.div256by128 5 0 3) ∧
  decode 0x00000000000000000000000000000000000000000000000000000000000000000000000000000000000000000000000000000000E =
      .error .illegalOperation

/-- An input that the operation's row does not list does not change the outcome, and an output the row marks 0 is driven to 0
(R54). -/
def Obligations.UnreadInputsAndUnwrittenOutputs : Prop :=
  (∀ q q' : Request, q.op = q'.op → q.word &&& readMask q.op = q'.word &&& readMask q.op → execute q = execute q') ∧
  (∀ (q : Request) (p : Response), execute q = .ok p →
    (q.op.toNat ≤ 0x4 ∨ q.op = 0x7 → p.r2 = 0 ∧ p.f = false) ∧
    (q.op = 0x5 ∨ q.op = 0x9 ∨ q.op = 0xA ∨ q.op = 0xC → p.r2 = 0) ∧
    (q.op = 0x8 → p.f = false))

/-! ### The machine -/

/-- Where the request at the input ports decodes to `i`, a step is `exec i` of the state that has accepted the request
(10_state.md R17). -/
def Obligations.StepRunsDecodedInstruction : Prop :=
  ∀ (s : State) (q : Request) (rest : List Request) (i : Instr),
    s.requests = q :: rest → decode q.word = .ok i → i.wellFormed = true →
    step s = exec i { s with requests := rest, answered := some q }

/-- A step answers the request at the input ports with the outcome of `Execute`, and that request alone leaves the queue
(10_state.md R17). -/
def Obligations.StepAgreesWithExecute : Prop :=
  ∀ (s : State) (q : Request) (rest : List Request), s.requests = q :: rest →
    ∃ t : State, step s = .next t ∧ t.requests = rest ∧ t.answered = some q ∧ Answers t q

/-- The block has exactly two fault kinds, each exactly under its condition, and no other request faults (60_exceptions.md R121,
30_encoding.md R55). -/
def Obligations.FaultConditions : Prop :=
  (∀ (s : State) (q : Request) (rest : List Request), s.requests = q :: rest →
    ∃ t : State, step s = .next t ∧
      (t.faultKind = some .illegalOperation ↔ q.op = 0xE ∨ q.op = 0xF) ∧
      (t.faultKind = some .dividePrecondition ↔ q.op = 0x9 ∧ (q.c = 0 ∨ q.c.toNat ≤ q.a.toNat)) ∧
      (t.err = true ↔ t.faultKind ≠ none)) ∧
  (∀ (n d : Word) (s : State), (∃ k, FaultsWith (div128by128 n d) s k) ↔ d = 0)

/-- No run stops while requests are presented: every input has a defined outcome (20_memory.md R41, 60_exceptions.md R115, R127);
with none presented the step stops (the model's choice, log entry 3). -/
def Obligations.RunsOnlyStopWithoutRequests : Prop :=
  (∀ (s : State) (n : Nat), n ≤ s.requests.length → SafeRun s n) ∧
  (∀ (s : State) (n : Nat), s.requests.length < n →
    Host.Core.run Sys2Proof.core n s = Host.Outcome.fault (σ := State) (ρ := Refusal) Fault.noRequest)

/-- Whatever requests come before it and after it, a request's response is a function of its own inputs (10_state.md R16), and
responses come in the order of the requests (20_memory.md R43). -/
def Obligations.ResponsesInRequestOrder : Prop :=
  ∀ (s : State) (before : List Request) (q : Request) (after : List Request),
    s.requests = before ++ q :: after →
    ∃ t : State, Host.Core.run Sys2Proof.core (before.length + 1) s = Host.Outcome.next t ∧
      t.requests = after ∧ t.answered = some q ∧ Answers t q

/-- Every step keeps the invariant that the outputs hold the response of the request they answer. -/
def Obligations.StepKeepsOutputsAnswer : Prop :=
  ∀ s t : State, OutputsAnswer s → step s = .next t → OutputsAnswer t

/-- Every instruction keeps every field but the outputs, and the free values are used only by a fault (60_exceptions.md R123). -/
def Obligations.InstructionFrame : Prop :=
  ∀ (i : Instr) (s : State), ∃ t : State, exec i s = .next t ∧
    t.requests = s.requests ∧ t.answered = s.answered ∧ (t.err = false → t.freeCount = s.freeCount)

/-- The invariant holds after reset. -/
def Obligations.ResetOutputsAnswer : Prop :=
  OutputsAnswer State.reset ∧ State.reset.requests = [] ∧ State.reset.answered = none

/-- A fault has no effect beyond its own response (60_exceptions.md R123). -/
def Obligations.FaultHasNoFurtherEffect : Prop :=
  ∀ (s t : State) (q q' : Request) (rest : List Request),
    s.requests = q :: q' :: rest → step s = .next t → t.err = true →
    t.requests = q' :: rest ∧
    ∃ u v : State, step t = .next u ∧ step { s with requests := q' :: rest } = .next v ∧
      u.response = v.response ∧ u.err = v.err ∧ u.requests = v.requests ∧ u.answered = v.answered

/-- Presenting the same request twice gives the same response, and a request has no side effect but its response
(20_memory.md R41). -/
def Obligations.SameRequestSameResponse : Prop :=
  ∀ (s : State) (q : Request) (rest : List Request), s.requests = q :: q :: rest →
    ∃ t u : State, step s = .next t ∧ step t = .next u ∧ t.response = u.response ∧ t.err = u.err ∧
      u.requests = rest ∧ (t.err = false → { u with requests := t.requests } = t)

/-- After reset the first request is handled exactly as any later one (70_reset_and_hazards.md R137), whether reset is the initial
state or is asserted while requests are in flight, which it discards (R138). -/
def Obligations.FirstRequestAfterReset : Prop :=
  ∀ (s later : State) (q : Request) (rest : List Request), later.requests = q :: rest →
    ∃ t u v : State, step (State.reset.present q) = .next t ∧ step (s.assertReset.present q) = .next u ∧
      step later = .next v ∧ t.requests = [] ∧ u.requests = [] ∧
      t.response = v.response ∧ u.response = v.response ∧ t.err = v.err ∧ u.err = v.err

/-- No floating-point operation, and none of the classifier and the codec, ever faults: `err = 0` always (60_exceptions.md
R115). -/
def Obligations.FloatingPointNeverFaults : Prop :=
  ∀ (a b c : Word) (sign : Bool) (e : BitVec 15) (fraction : BitVec 112) (i : Instr) (s : State),
    i ∈ [Instr.addQpo a b, .subQpo a b, .mulQpo a b, .divQpo a b, .fmaQpo a b c, .classF128 a, .decodeF128 a,
      .encodeF128 sign e fraction] →
    ∃ t : State, exec i s = .next t ∧ t.err = false ∧ t.faultKind = none

/-! ### Classifier and codec -/

/-- CLASS_F128: the code of the pattern's category on `r`, its sign on `f` (40_codec_classifier.md R66, R62; the categories of
10_state.md R25). -/
def Obligations.ClassifierCode : Prop :=
  ∀ (a : Word) (s : State),
    let e : ℕ := a.toNat / 2 ^ 112 % 2 ^ 15
    let fr : ℕ := a.toNat % 2 ^ 112
    let code : ℕ :=
      if e = 0 then (if fr = 0 then 0 else 1)
      else if e ≤ 0x7FFE then 2
      else if fr = 0 then 3
      else if 2 ^ 111 ≤ fr then 4
      else 5
    exec (.classF128 a) s = .next
      { s with r := BitVec.ofNat 128 code, r2 := 0, f := decide (2 ^ 127 ≤ a.toNat), err := false, faultKind := none }

/-- DECODE_F128: the significand with its implicit bit on `r`, the exponent field on `r2`, the sign on `f`
(40_codec_classifier.md R64, R59, R60). -/
def Obligations.DecodedFields : Prop :=
  ∀ (a : Word) (s : State),
    let e : ℕ := a.toNat / 2 ^ 112 % 2 ^ 15
    let fr : ℕ := a.toNat % 2 ^ 112
    exec (.decodeF128 a) s = .next
      { s with
        r := BitVec.ofNat 128 (if 1 ≤ e ∧ e ≤ 0x7FFE then 2 ^ 112 + fr else fr)
        r2 := BitVec.ofNat 128 e
        f := decide (2 ^ 127 ≤ a.toNat)
        err := false
        faultKind := none }

/-- ENCODE_F128 packs sign `a[0]`, exponent `b[14:0]` and fraction `c[111:0]`, whatever the other bits of the ports
(40_codec_classifier.md R65, R61). -/
def Obligations.EncodedPattern : Prop :=
  (∀ (sign : Bool) (e : BitVec 15) (fraction : BitVec 112),
    ResultsIn (.encodeF128 sign e fraction)
      (BitVec.ofNat 128 (sign.toNat * 2 ^ 127 + e.toNat * 2 ^ 112 + fraction.toNat))) ∧
  (∀ (s : State) (q : Request) (rest : List Request), s.requests = q :: rest → q.op = 0x7 →
    ∃ t : State, step s = .next t ∧ t.err = false ∧
      t.r.toNat = q.a.toNat % 2 * 2 ^ 127 + q.b.toNat % 2 ^ 15 * 2 ^ 112 + q.c.toNat % 2 ^ 112)

/-- Round trip: ENCODE_F128 of what DECODE_F128 gave, or of the bare fields, gives the pattern back (40_codec_classifier.md
R67). -/
def Obligations.CodecRoundTrip : Prop :=
  ∀ (v : Word) (s : State), ∃ t : State, exec (.decodeF128 v) s = .next t ∧
    ∀ (c : Word) (amt : Amount), (c = t.r ∨ c.toNat = v.toNat % 2 ^ 112) →
      ∃ i : Instr,
        decode (Request.word { op := 0x7, a := (BitVec.ofBool t.f).setWidth 128, b := t.r2, c := c, amt := amt }) = .ok i ∧
        ResultsIn i v

/-- NaN selection: the first NaN in argument order, quieted; a later signaling NaN has no priority (40_codec_classifier.md
R63). That nothing is selected where no operand is a NaN, a case R63 does not apply to, is the model's choice (log entry 14). -/
def Obligations.FirstNaNSelected : Prop :=
  ∀ (xs : List Word) (y : Word), selectNaN xs = some y ↔
    ∃ (before : List Word) (x : Word) (after : List Word), xs = before ++ x :: after ∧
      (∀ z ∈ before, isNaN z = false) ∧ isNaN x = true ∧ y = quiet x

/-- Quieting sets bit 111 and leaves every other bit, and with it the sign; a quiet NaN is unchanged and every NaN becomes quiet
(10_state.md R30). -/
def Obligations.QuietSetsOneBit : Prop :=
  ∀ v : Word,
    (∀ n : Nat, n < 128 → (quiet v).getLsbD n = (decide (n = 111) || v.getLsbD n)) ∧
    (classify v = .quietNaN → quiet v = v) ∧
    (isNaN v = true → classify (quiet v) = .quietNaN)

/-! ### Integer primitives -/

/-- MUL_128X128 is exact: `r ‖ r2` is the product (41_integer_primitives.md R70). -/
def Obligations.WideMultiplyExact : Prop :=
  ∀ (a b : Word) (s : State), ∃ hi lo : Word,
    exec (.mul128x128 a b) s = .next { s with r := hi, r2 := lo, f := false, err := false, faultKind := none } ∧
    hi.toNat * 2 ^ 128 + lo.toNat = a.toNat * b.toNat

/-- DIV_256BY128: with the precondition met, the quotient with the remainder folded into bit 0 and the nonzero-remainder signal;
with it broken, the fault (41_integer_primitives.md R72). -/
def Obligations.WideDivideFoldsRemainder : Prop :=
  ∀ (a b c : Word) (s : State),
    let n : ℕ := a.toNat * 2 ^ 128 + b.toNat
    (c.toNat ≠ 0 → a.toNat < c.toNat → ∃ (r : Word) (nz : Bool),
      exec (.div256by128 a b c) s = .next { s with r := r, r2 := 0, f := nz, err := false, faultKind := none } ∧
      (nz = true ↔ n % c.toNat ≠ 0) ∧
      r.toNat = (if nz = true ∧ n / c.toNat % 2 = 0 then n / c.toNat + 1 else n / c.toNat)) ∧
    (c.toNat = 0 ∨ c.toNat ≤ a.toNat → FaultsWith (.div256by128 a b c) s .dividePrecondition)

/-- SRS_128 for every amount: `r = a >> amt`, `f` set exactly when a set bit is lost (41_integer_primitives.md R75). -/
def Obligations.ShiftRightSticky128 : Prop :=
  ∀ (a : Word) (amt : Amount) (s : State), ∃ (v : Word) (st : Bool),
    exec (.srs128 a amt) s = .next { s with r := v, r2 := 0, f := st, err := false, faultKind := none } ∧
    v.toNat = a.toNat / 2 ^ amt.toNat ∧ (st = true ↔ a.toNat % 2 ^ amt.toNat ≠ 0)

/-- SRS_256 for every amount, over the 256-bit value `a ‖ b` (41_integer_primitives.md R76). -/
def Obligations.ShiftRightSticky256 : Prop :=
  ∀ (a b : Word) (amt : Amount) (s : State), ∃ (hi lo : Word) (st : Bool),
    exec (.srs256 a b amt) s = .next { s with r := hi, r2 := lo, f := st, err := false, faultKind := none } ∧
    hi.toNat * 2 ^ 128 + lo.toNat = (a.toNat * 2 ^ 128 + b.toNat) / 2 ^ amt.toNat ∧
    (st = true ↔ (a.toNat * 2 ^ 128 + b.toNat) % 2 ^ amt.toNat ≠ 0)

/-- SLS_128 for every amount: `r` the low 128 bits of `a << amt`, `f` set exactly when a set bit is lost at the top
(41_integer_primitives.md R77). -/
def Obligations.ShiftLeftLost128 : Prop :=
  ∀ (a : Word) (amt : Amount) (s : State), ∃ (v : Word) (lost : Bool),
    exec (.sls128 a amt) s = .next { s with r := v, r2 := 0, f := lost, err := false, faultKind := none } ∧
    v.toNat = a.toNat * 2 ^ amt.toNat % 2 ^ 128 ∧ (lost = true ↔ 2 ^ 128 ≤ a.toNat * 2 ^ amt.toNat)

/-- SLS_256 for every amount, over the 256-bit value `a ‖ b` (41_integer_primitives.md R78). -/
def Obligations.ShiftLeftLost256 : Prop :=
  ∀ (a b : Word) (amt : Amount) (s : State), ∃ (hi lo : Word) (lost : Bool),
    exec (.sls256 a b amt) s = .next { s with r := hi, r2 := lo, f := lost, err := false, faultKind := none } ∧
    hi.toNat * 2 ^ 128 + lo.toNat = (a.toNat * 2 ^ 128 + b.toNat) * 2 ^ amt.toNat % 2 ^ 256 ∧
    (lost = true ↔ 2 ^ 256 ≤ (a.toNat * 2 ^ 128 + b.toNat) * 2 ^ amt.toNat)

/-! ### Values and rounding -/

/-- The value of a finite pattern (10_state.md R27). -/
def Obligations.ValueOfPattern : Prop :=
  ∀ v : Word, isFinite v = true →
    let e : ℕ := v.toNat / 2 ^ 112 % 2 ^ 15
    let fr : ℕ := v.toNat % 2 ^ 112
    value v = (if 2 ^ 127 ≤ v.toNat then -1 else 1) *
      (if e = 0 then (fr : ℚ) * (2 : ℚ) ^ (1 - 16383 - 112 : ℤ)
        else (2 ^ 112 + (fr : ℚ)) * (2 : ℚ) ^ ((e : ℤ) - 16383 - 112))

/-- The named patterns, their signs and their values (10_state.md R28), and the one pattern of DNAN (R29). -/
def Obligations.NamedPatternValues : Prop :=
  value pZero = 0 ∧ value nZero = 0 ∧ isZero pZero = true ∧ isZero nZero = true ∧
  signBit pZero = false ∧ signBit nZero = true ∧
  value minSub = (2 : ℚ) ^ (-16494 : ℤ) ∧ value maxSub = (2 ^ 112 - 1) * (2 : ℚ) ^ (-16494 : ℤ) ∧
  value minNorm = (2 : ℚ) ^ (-16382 : ℤ) ∧ value one = 1 ∧ value maxF = (2 ^ 113 - 1) * (2 : ℚ) ^ (16271 : ℤ) ∧
  maxV = (2 ^ 113 - 1) * (2 : ℚ) ^ (16271 : ℤ) ∧
  classify pInf = .infinity ∧ classify nInf = .infinity ∧ signBit pInf = false ∧ signBit nInf = true ∧
  classify dNaN = .quietNaN ∧ signBit dNaN = false ∧ expField dNaN = 0x7FFF ∧ (fracField dNaN).toNat = 2 ^ 111 ∧
  dNaN.toNat = 0x7FFF * 2 ^ 112 + 2 ^ 111

/-- `RTO(s, x)` in numbers (42_round_to_odd.md R83): `e` is the exponent of the binade clamped at the subnormal floor, `t` the
truncated significand, made odd when anything was discarded. -/
def Obligations.RoundToOddPattern : Prop :=
  ∀ (s : Bool) (x : ℚ), 0 < x → x ≤ maxV →
    ∃ (e : ℤ) (t u : ℕ),
      -16382 ≤ e ∧ x < (2 : ℚ) ^ (e + 1) ∧ (e = -16382 ∨ (2 : ℚ) ^ e ≤ x) ∧
      (t : ℚ) * (2 : ℚ) ^ (e - 112) ≤ x ∧ x < ((t : ℚ) + 1) * (2 : ℚ) ^ (e - 112) ∧ t < 2 ^ 113 ∧
      u = (if (t : ℚ) * (2 : ℚ) ^ (e - 112) = x ∨ t % 2 = 1 then t else t + 1) ∧
      (rto s x).toNat = s.toNat * 2 ^ 127 +
        (if 2 ^ 112 ≤ u then (e + 16383).toNat * 2 ^ 112 + (u - 2 ^ 112) else u)

/-- An exact result that is representable is returned unchanged (42_round_to_odd.md R84, first consequence). -/
def Obligations.RepresentableUnchanged : Prop :=
  ∀ (v : Word) (zs : Bool), isFinite v = true → value v ≠ 0 →
    rto (signBit v) (magnitude v) = v ∧ fromReal (value v) zs = v

/-- An inexact result is odd, and the result of a nonzero value is a finite nonzero pattern of its sign (R84, second and third
consequences). -/
def Obligations.InexactIsOddNeverZeroNorInfinite : Prop :=
  ∀ (x : ℚ) (zs : Bool), x ≠ 0 →
    isFinite (fromReal x zs) = true ∧ value (fromReal x zs) ≠ 0 ∧
    signBit (fromReal x zs) = decide (x < 0) ∧
    (value (fromReal x zs) ≠ x → (fromReal x zs).getLsbD 0 = true)

/-- Rounding is monotonic, and symmetric in sign (R84, fourth consequence). -/
def Obligations.RoundingMonotoneAndSymmetric : Prop :=
  (∀ (x y : ℚ) (zs zs' : Bool), x ≤ y → value (fromReal x zs) ≤ value (fromReal y zs')) ∧
  (∀ (x : ℚ) (zs : Bool), fromReal (-x) (!zs) = fromReal x zs ^^^ nZero)

/-- Overflow gives the largest finite magnitude with the sign of the result, never an infinity, and RTO alone gives the same below
2^16384 (42_round_to_odd.md R82). -/
def Obligations.OverflowClamps : Prop :=
  (∀ (x : ℚ) (zs : Bool), maxV < |x| → fromReal x zs = withSign (decide (x < 0)) maxF) ∧
  (∀ (s : Bool) (x : ℚ), maxV < x → x < (2 : ℚ) ^ (16384 : ℤ) → rto s x = withSign s maxF)

/-- Underflow is gradual: below MINNORM a nonzero result is subnormal, below MINSUB it is ±MINSUB, and a zero comes only from an
exact zero (42_round_to_odd.md R85). -/
def Obligations.UnderflowIsGradual : Prop :=
  ∀ (x : ℚ) (zs : Bool),
    (x ≠ 0 → |x| < (2 : ℚ) ^ (-16382 : ℤ) → classify (fromReal x zs) = .subnormal) ∧
    (x ≠ 0 → |x| < (2 : ℚ) ^ (-16494 : ℤ) → fromReal x zs = withSign (decide (x < 0)) minSub) ∧
    (isZero (fromReal x zs) = true ↔ x = 0)

/-- `Finish` under its precondition is round-to-odd of the exact magnitude (42_round_to_odd.md R88, R89). -/
def Obligations.FinishRoundsToOdd : Prop :=
  ∀ (s : Bool) (m : ℕ) (k : ℤ) (st : Bool) (x : ℚ),
    1 ≤ m → (m : ℚ) * (2 : ℚ) ^ k ≤ x → x < ((m : ℚ) + 1) * (2 : ℚ) ^ k →
    (st = true ↔ x ≠ (m : ℚ) * (2 : ℚ) ^ k) → (st = true → 0 ≤ finishShift m k) →
    finish s m k st = roundToOdd s x

/-- Jamming: a working value `y | 1` in place of a truncated value and its sticky bit (42_round_to_odd.md R90). -/
def Obligations.JammedStickyRoundsToOdd : Prop :=
  ∀ (s : Bool) (y : ℕ) (k : ℤ) (x : ℚ),
    (y : ℚ) * (2 : ℚ) ^ k < x → x < ((y : ℚ) + 1) * (2 : ℚ) ^ k → 1 ≤ finishShift (y ||| 1) k →
    finish s (y ||| 1) k false = roundToOdd s x

/-! ### Add and subtract -/

/-- The decision table of ADD_QPO and SUB_QPO, `sb` being the effective sign of `b` (43_add_sub.md R92). -/
def Obligations.AddSubDecisionTable : Prop :=
  ∀ (a b : Word) (i : Instr) (sb : Bool),
    (i = .addQpo a b ∧ sb = b.getLsbD 127 ∨ i = .subQpo a b ∧ sb = !b.getLsbD 127) →
    (isNaN a = true → ResultsIn i (quiet a)) ∧
    (isNaN a = false → isNaN b = true → ResultsIn i (quiet b)) ∧
    (isInf a = true → isInf b = true → a.getLsbD 127 = sb → ResultsIn i a) ∧
    (isInf a = true → isInf b = true → a.getLsbD 127 ≠ sb → ResultsIn i dNaN) ∧
    (isInf a = true → isFinite b = true → ResultsIn i a) ∧
    (isFinite a = true → isInf b = true → ResultsIn i (withSign sb pInf)) ∧
    (isFinite a = true → isFinite b = true →
      ResultsIn i (fromReal (value a + (if sb = true then -|value b| else |value b|)) (a.getLsbD 127 && sb)))

/-- The sign of an exact zero sum: negative only when both addends are, and an exact cancellation of nonzero operands is +0
(43_add_sub.md R93). -/
def Obligations.ExactZeroSumSign : Prop :=
  ∀ a b : Word, isFinite a = true → isFinite b = true →
    (value a + value b = 0 → ResultsIn (.addQpo a b) (if a = nZero ∧ b = nZero then nZero else pZero)) ∧
    (value a - value b = 0 → ResultsIn (.subQpo a b) (if a = nZero ∧ b = pZero then nZero else pZero))

/-- SUB_QPO: the decision table with `b`'s sign inverted, so addition of the negated `b`, but for a NaN `b`, which keeps its sign
(43_add_sub.md R96). -/
def Obligations.SubtractIsAddOfNegated : Prop :=
  (∀ a b : Word, ResultsIn (.subQpo a b) (addSub a b (!b.getLsbD 127))) ∧
  (∀ a b w : Word, isNaN b = false → (ResultsIn (.subQpo a b) w ↔ ResultsIn (.addQpo a (b ^^^ nZero)) w)) ∧
  (∀ a b : Word, isNaN a = false → isNaN b = true → ResultsIn (.subQpo a b) (quiet b)) ∧
  (∀ x : Word, isFinite x = true → ResultsIn (.subQpo x x) pZero) ∧
  ResultsIn (.subQpo nZero pZero) nZero ∧
  ResultsIn (.subQpo pInf pInf) dNaN ∧
  ResultsIn (.subQpo 0x3FFF0000000000000000000000000001 one) 0x3F8F0000000000000000000000000000

/-- Adding a zero of either sign leaves a finite nonzero operand, and the sums of zeros (43_add_sub.md R99, first property). -/
def Obligations.AddZeroIdentity : Prop :=
  (∀ a : Word, isFinite a = true → isZero a = false →
    ResultsIn (.addQpo a pZero) a ∧ ResultsIn (.addQpo a nZero) a ∧
    ResultsIn (.addQpo pZero a) a ∧ ResultsIn (.addQpo nZero a) a) ∧
  ResultsIn (.addQpo pZero pZero) pZero ∧ ResultsIn (.addQpo nZero nZero) nZero ∧
  ResultsIn (.addQpo pZero nZero) pZero ∧ ResultsIn (.addQpo nZero pZero) pZero

/-- Addition and multiplication commute, but for two NaNs whose quieted patterns differ, where the first operand decides
(43_add_sub.md R99, 44_mul.md R104). -/
def Obligations.AddAndMultiplyCommute : Prop :=
  ∀ a b : Word,
    (¬ (isNaN a = true ∧ isNaN b = true ∧ quiet a ≠ quiet b) →
      ∃ x y : Word, ResultsIn (.addQpo a b) x ∧ ResultsIn (.addQpo b a) x ∧
        ResultsIn (.mulQpo a b) y ∧ ResultsIn (.mulQpo b a) y) ∧
    (isNaN a = true → isNaN b = true → ResultsIn (.addQpo a b) (quiet a) ∧ ResultsIn (.mulQpo a b) (quiet a))

/-- The Sterbenz property: operands of one sign within a factor of two of each other subtract exactly (43_add_sub.md R99, third
property). -/
def Obligations.CloseOperandsSubtractExactly : Prop :=
  ∀ x y : Word, isFinite x = true → isFinite y = true → x.getLsbD 127 = y.getLsbD 127 →
    |value y| / 2 ≤ |value x| → |value x| ≤ 2 * |value y| →
    ∃ w : Word, ResultsIn (.subQpo x y) w ∧ isFinite w = true ∧ value w = value x - value y

/-- The adder's reference datapath gives row 6 of the decision table, bit for bit (43_add_sub.md R97, R98). -/
def Obligations.AddDatapathIsExact : Prop :=
  ∀ (a b : Word) (sb : Bool), isFinite a = true → isFinite b = true →
    addCore a b sb = fromReal (value a + (if sb = true then -|value b| else |value b|)) (a.getLsbD 127 && sb)

/-! ### Multiply, divide, fused multiply-add -/

/-- The decision table of MUL_QPO (44_mul.md R100). -/
def Obligations.MultiplyDecisionTable : Prop :=
  ∀ a b : Word,
    let sp := a.getLsbD 127 ^^ b.getLsbD 127
    (isNaN a = true → ResultsIn (.mulQpo a b) (quiet a)) ∧
    (isNaN a = false → isNaN b = true → ResultsIn (.mulQpo a b) (quiet b)) ∧
    (isInf a = true ∧ isZero b = true ∨ isZero a = true ∧ isInf b = true → ResultsIn (.mulQpo a b) dNaN) ∧
    (isInf a = true → isNaN b = false → isZero b = false → ResultsIn (.mulQpo a b) (withSign sp pInf)) ∧
    (isInf b = true → isNaN a = false → isZero a = false → ResultsIn (.mulQpo a b) (withSign sp pInf)) ∧
    (isFinite a = true → isFinite b = true → ResultsIn (.mulQpo a b) (fromReal (value a * value b) sp))

/-- The multiplier's reference datapath gives row 4 of the decision table (44_mul.md R103). -/
def Obligations.MultiplyDatapathIsExact : Prop :=
  ∀ a b : Word, isFinite a = true → isFinite b = true → isZero a = false → isZero b = false →
    mulCore a b = fromReal (value a * value b) (a.getLsbD 127 ^^ b.getLsbD 127)

/-- The decision table of DIV_QPO (45_div.md R105). -/
def Obligations.DivideDecisionTable : Prop :=
  ∀ a b : Word,
    let sp := a.getLsbD 127 ^^ b.getLsbD 127
    (isNaN a = true → ResultsIn (.divQpo a b) (quiet a)) ∧
    (isNaN a = false → isNaN b = true → ResultsIn (.divQpo a b) (quiet b)) ∧
    (isZero a = true → isZero b = true → ResultsIn (.divQpo a b) dNaN) ∧
    (isInf a = true → isInf b = true → ResultsIn (.divQpo a b) dNaN) ∧
    (isInf a = true → isFinite b = true → ResultsIn (.divQpo a b) (withSign sp pInf)) ∧
    (isFinite a = true → isInf b = true → ResultsIn (.divQpo a b) (withSign sp pZero)) ∧
    (isFinite a = true → isZero a = false → isZero b = true → ResultsIn (.divQpo a b) (withSign sp pInf)) ∧
    (isZero a = true → isFinite b = true → isZero b = false → ResultsIn (.divQpo a b) (withSign sp pZero)) ∧
    (isFinite a = true → isZero a = false → isFinite b = true → isZero b = false →
      ResultsIn (.divQpo a b) (fromReal (value a / value b) sp))

/-- The divider's reference datapath never breaks the wide divide's precondition and gives row 8 of the decision table
(45_div.md R108, R109). -/
def Obligations.DivideDatapathIsExact : Prop :=
  ∀ a b : Word, isFinite a = true → isFinite b = true → isZero a = false → isZero b = false →
    divCore a b = .ok (fromReal (value a / value b) (a.getLsbD 127 ^^ b.getLsbD 127))

/-- An exact quotient multiplied by the divisor gives the dividend back, bit for bit (44_mul.md R104, third property). The other
clause that R104 quotes there, `mul_qpo(div_qpo(a,b), b)` within one ULP of `a` for all normal `a` and `b`, does not follow from the
decision tables (R100, R105) and fails under them: the model follows the tables and states the exact half alone (DESIGN CHOICE, log
entry 19). -/
def Obligations.ExactQuotientTimesDivisor : Prop :=
  ∀ a b w : Word, isFinite a = true → isZero a = false → isFinite b = true → isZero b = false →
    ResultsIn (.divQpo a b) w → value w = value a / value b → ResultsIn (.mulQpo w b) a

/-- The decision table of FMA_QPO and the sign of its exact zero (46_fma.md R110, R111). -/
def Obligations.FusedDecisionTable : Prop :=
  ∀ a b c : Word,
    let sp := a.getLsbD 127 ^^ b.getLsbD 127
    let sc := c.getLsbD 127
    let i := Instr.fmaQpo a b c
    (isNaN a = true → ResultsIn i (quiet a)) ∧
    (isNaN a = false → isNaN b = true → ResultsIn i (quiet b)) ∧
    (isNaN a = false → isNaN b = false → isNaN c = true → ResultsIn i (quiet c)) ∧
    (isNaN c = false → (isInf a = true ∧ isZero b = true ∨ isZero a = true ∧ isInf b = true) → ResultsIn i dNaN) ∧
    (isInf a = true ∧ isNaN b = false ∧ isZero b = false ∨ isInf b = true ∧ isNaN a = false ∧ isZero a = false →
      (isInf c = true → sc ≠ sp → ResultsIn i dNaN) ∧
      (isInf c = true → sc = sp → ResultsIn i (withSign sp pInf)) ∧
      (isFinite c = true → ResultsIn i (withSign sp pInf))) ∧
    (isFinite a = true → isFinite b = true → isInf c = true → ResultsIn i c) ∧
    (isFinite a = true → isFinite b = true → isFinite c = true →
      ResultsIn i (fromReal (value a * value b + value c) (sp && sc))) ∧
    (isFinite a = true → isFinite b = true → isFinite c = true → value a * value b + value c = 0 →
      ResultsIn i (if value c = 0 ∧ sp = true ∧ sc = true then nZero else pZero))

/-- The fused reference datapath gives row 6 of the decision table (46_fma.md R113, R114). -/
def Obligations.FusedDatapathIsExact : Prop :=
  ∀ a b c : Word, isFinite a = true → isFinite b = true → isFinite c = true →
    fmaCore a b c =
      fromReal (value a * value b + value c) ((a.getLsbD 127 ^^ b.getLsbD 127) && c.getLsbD 127)

/-- An infinite result comes only from an infinite operand or from division of a nonzero finite value by zero
(60_exceptions.md R118). -/
def Obligations.InfinityOnlyFromInfinityOrZeroDivisor : Prop :=
  ∀ (a b c w : Word) (i : Instr),
    i ∈ [Instr.addQpo a b, .subQpo a b, .mulQpo a b, .divQpo a b, .fmaQpo a b c] →
    ResultsIn i w → isInf w = true →
    isInf a = true ∨ isInf b = true ∨ (isInf c = true ∧ i = .fmaQpo a b c) ∨
      (i = .divQpo a b ∧ isFinite a = true ∧ isZero a = false ∧ isZero b = true)

/-- The pseudo-operations: each is exactly one request, the one of its expansion, and what it results in (30_encoding.md R58). -/
def Obligations.PseudoOperations : Prop :=
  (∀ a : Word, assemble .NEG_QPO [a] = some { op := 0x1, a := 0x80000000000000000000000000000000, b := a, c := 0, amt := 0 } ∧
    assemble .NEG_QPO [a] = assemble .SUB_QPO [0x80000000000000000000000000000000, a] ∧
    assemble .NEG_QPO [a] = some (negQpo a).request) ∧
  (∀ a : Word, isNaN a = false → ResultsIn (negQpo a) (a ^^^ 0x80000000000000000000000000000000)) ∧
  (∀ a : Word, isNaN a = true → ResultsIn (negQpo a) (quiet a)) ∧
  (∀ a : Word, assemble .SQR_128 [a] = some { op := 0x8, a := a, b := a, c := 0, amt := 0 } ∧
    assemble .SQR_128 [a] = assemble .MUL_128X128 [a, a] ∧
    assemble .SQR_128 [a] = some (sqr128 a).request) ∧
  (∀ n d : Word, assemble .DIV_128BY128 [n, d] = some { op := 0x9, a := 0, b := n, c := d, amt := 0 } ∧
    assemble .DIV_128BY128 [n, d] = assemble .DIV_256BY128 [0, n, d] ∧
    assemble .DIV_128BY128 [n, d] = some (div128by128 n d).request) ∧
  (∀ (n d : Word) (s : State), d ≠ 0 → ∃ t : State, exec (div128by128 n d) s = .next t ∧ t.err = false ∧
    (t.f = true ↔ n.toNat % d.toNat ≠ 0) ∧ t.r.toNat = n.toNat / d.toNat ||| t.f.toNat)

/-- A line assembles to one request: "`op` from the mnemonic, the input ports from the operands, and 0 on every port the operation
does not read" (30_encoding.md R57, the op values of R52, the port order of R53). `ws` are the words of the operands, in order; a
literal's word is its number, a name's the value the caller holds under it; that this is the newest, where a name is held twice, is
the model's choice (DESIGN CHOICE, log entry 17). Last, whatever assembles is legal and decodes. -/
def Obligations.LineAssemblesToOneRequest : Prop :=
  (∀ (h : Held) (v : ℕ), v < 2 ^ 128 → (LineOperand.literal v).word h = some (BitVec.ofNat 128 v)) ∧
  (∀ (h : Held) (n m : HeldName) (w : Word), (LineOperand.held n).word ((n, w) :: h) = some w ∧
    (m ≠ n → (LineOperand.held n).word ((m, w) :: h) = (LineOperand.held n).word h)) ∧
  (∀ (h : Held) (ts : List HeldName) (os : List LineOperand) (ws : List Word),
    List.Forall₂ (fun o w => LineOperand.word h o = some w) os ws →
    (∀ a b : Word, ts.length = 1 → ws = [a, b] →
      SourceLine.request h ⟨ts, .ADD_QPO, os⟩ = some { op := 0x0, a := a, b := b, c := 0, amt := 0 } ∧
      SourceLine.request h ⟨ts, .SUB_QPO, os⟩ = some { op := 0x1, a := a, b := b, c := 0, amt := 0 } ∧
      SourceLine.request h ⟨ts, .MUL_QPO, os⟩ = some { op := 0x2, a := a, b := b, c := 0, amt := 0 } ∧
      SourceLine.request h ⟨ts, .DIV_QPO, os⟩ = some { op := 0x3, a := a, b := b, c := 0, amt := 0 }) ∧
    (∀ a b c : Word, ts.length = 1 → ws = [a, b, c] →
      SourceLine.request h ⟨ts, .FMA_QPO, os⟩ = some { op := 0x4, a := a, b := b, c := c, amt := 0 }) ∧
    (∀ a : Word, ts.length = 2 → ws = [a] →
      SourceLine.request h ⟨ts, .CLASS_F128, os⟩ = some { op := 0x5, a := a, b := 0, c := 0, amt := 0 }) ∧
    (∀ a : Word, ts.length = 3 → ws = [a] →
      SourceLine.request h ⟨ts, .DECODE_F128, os⟩ = some { op := 0x6, a := a, b := 0, c := 0, amt := 0 }) ∧
    (∀ sign exp frac : Word, ts.length = 1 → ws = [sign, exp, frac] →
      SourceLine.request h ⟨ts, .ENCODE_F128, os⟩ = some { op := 0x7, a := sign, b := exp, c := frac, amt := 0 }) ∧
    (∀ a b : Word, ts.length = 2 → ws = [a, b] →
      SourceLine.request h ⟨ts, .MUL_128X128, os⟩ = some { op := 0x8, a := a, b := b, c := 0, amt := 0 }) ∧
    (∀ hi lo d : Word, ts.length = 2 → ws = [hi, lo, d] →
      SourceLine.request h ⟨ts, .DIV_256BY128, os⟩ = some { op := 0x9, a := hi, b := lo, c := d, amt := 0 }) ∧
    (∀ (a : Word) (amt : Amount), ts.length = 2 → ws = [a, amt.setWidth 128] →
      SourceLine.request h ⟨ts, .SRS_128, os⟩ = some { op := 0xA, a := a, b := 0, c := 0, amt := amt } ∧
      SourceLine.request h ⟨ts, .SLS_128, os⟩ = some { op := 0xC, a := a, b := 0, c := 0, amt := amt }) ∧
    (∀ (hi lo : Word) (amt : Amount), ts.length = 3 → ws = [hi, lo, amt.setWidth 128] →
      SourceLine.request h ⟨ts, .SRS_256, os⟩ = some { op := 0xB, a := hi, b := lo, c := 0, amt := amt } ∧
      SourceLine.request h ⟨ts, .SLS_256, os⟩ = some { op := 0xD, a := hi, b := lo, c := 0, amt := amt }) ∧
    (∀ (m : Mnemonic) (q : Request), assemble m ws = some q → ts.length = m.outputs.length →
      SourceLine.request h ⟨ts, m, os⟩ = some q)) ∧
  (∀ (h : Held) (l : SourceLine) (q : Request), l.request h = some q →
    q.wellFormed = true ∧ ∃ i : Instr, decode q.word = .ok i ∧ i.op = q.op)

/-- The outputs of a line, in order: what the caller holds under the line's names after the response (30_encoding.md R57, the forms
of its list and of R58); the bit `f` is held zero-extended (the model's choice, log entry 17). -/
def Obligations.LineReceivesOutputs : Prop :=
  ∀ (h : Held) (os : List LineOperand) (s : State) (x y z : HeldName) (m : Mnemonic),
    (m ∈ [Mnemonic.ADD_QPO, .SUB_QPO, .MUL_QPO, .DIV_QPO, .FMA_QPO, .ENCODE_F128, .NEG_QPO] →
      SourceLine.receive h ⟨[x], m, os⟩ s = (x, s.r) :: h) ∧
    (m ∈ [Mnemonic.CLASS_F128, .DIV_256BY128, .SRS_128, .SLS_128, .DIV_128BY128] →
      SourceLine.receive h ⟨[x, y], m, os⟩ s = (y, BitVec.ofNat 128 s.f.toNat) :: (x, s.r) :: h) ∧
    (m ∈ [Mnemonic.MUL_128X128, .SQR_128] →
      SourceLine.receive h ⟨[x, y], m, os⟩ s = (y, s.r2) :: (x, s.r) :: h) ∧
    (m ∈ [Mnemonic.DECODE_F128, .SRS_256, .SLS_256] →
      SourceLine.receive h ⟨[x, y, z], m, os⟩ s = (z, BitVec.ofNat 128 s.f.toNat) :: (y, s.r2) :: (x, s.r) :: h)

/-- A caller that issues a line gets the response of that line's own request, whatever requests were waiting, and issues the next line
only after it (70_reset_and_hazards.md R141). That it waits even where no operand needs it, and goes on after `err = 1`, is the
model's choice (DESIGN CHOICE, log entry 18). -/
def Obligations.IssuedLineGetsItsOwnResponse : Prop :=
  (∀ (s : State) (q : Request), ∃ t : State, s.awaitResponse q = .next t ∧
    Host.Core.run Sys2Proof.core (s.requests.length + 1) (s.present q) = Host.Outcome.next t ∧
    t.requests = [] ∧ t.answered = some q ∧ Answers t q) ∧
  (∀ (l : SourceLine) (rest : List SourceLine) (h : Held) (s : State) (q : Request), l.request h = some q →
    ∃ t : State, t.requests = [] ∧ t.answered = some q ∧ Answers t q ∧
      runLines (l :: rest) h s = runLines rest (l.receive h t) t)
end

