-- ==== Sys2Proof/Laws/Binary128.lean ====
section
/-! SUPPORT. The fields of a pattern as numbers, and the categories in terms of the fields (10_state.md R23 to R25). -/
namespace Sys2Proof.Machine

theorem expField_toNat (v : Word) : (expField v).toNat = v.toNat / 2 ^ 112 % 2 ^ 15 := by
  simp [expField, BitVec.extractLsb'_toNat, Nat.shiftRight_eq_div_pow]

theorem fracField_toNat (v : Word) : (fracField v).toNat = v.toNat % 2 ^ 112 := by
  simp [fracField, BitVec.extractLsb'_toNat]

theorem signBit_eq (v : Word) : signBit v = decide (2 ^ 127 ≤ v.toNat) := by
  have := v.isLt
  simp only [signBit, BitVec.getLsbD, Nat.testBit_eq_decide_div_mod_eq]
  congr 1
  simp only [eq_iff_iff]
  omega

/-- A pattern is its three fields. -/
theorem toNat_eq_fields (v : Word) :
    v.toNat = (signBit v).toNat * 2 ^ 127 + (expField v).toNat * 2 ^ 112 + (fracField v).toNat := by
  have := v.isLt
  rw [expField_toNat, fracField_toNat, signBit_eq]
  by_cases h : 2 ^ 127 ≤ v.toNat
  · rw [decide_eq_true h, Bool.toNat_true]; omega
  · rw [decide_eq_false h, Bool.toNat_false]; omega

theorem expField_lt (v : Word) : (expField v).toNat < 2 ^ 15 := (expField v).isLt

theorem fracField_lt (v : Word) : (fracField v).toNat < 2 ^ 112 := (fracField v).isLt

/-- The fields of a number laid out as sign, exponent and fraction. -/
theorem fields_of_toNat {v : Word} {s : Bool} {e f : Nat} (he : e < 2 ^ 15) (hf : f < 2 ^ 112)
    (h : v.toNat = s.toNat * 2 ^ 127 + e * 2 ^ 112 + f) :
    signBit v = s ∧ (expField v).toNat = e ∧ (fracField v).toNat = f := by
  rw [expField_toNat, fracField_toNat, signBit_eq, h]
  cases s <;> simp <;> omega

theorem word_ext {v w : Word} (hs : signBit v = signBit w) (he : expField v = expField w)
    (hf : fracField v = fracField w) : v = w := by
  apply BitVec.eq_of_toNat_eq
  rw [toNat_eq_fields v, toNat_eq_fields w, hs, he, hf]

theorem signWord_toNat (s : Bool) : (signWord s).toNat = s.toNat * 2 ^ 127 := by
  cases s <;> decide

/-- A sign over a magnitude below the sign bit: the OR is a sum. -/
theorem signWord_or_toNat (s : Bool) {v : Word} (h : v.toNat < 2 ^ 127) :
    (signWord s ||| v).toNat = s.toNat * 2 ^ 127 + v.toNat := by
  rw [BitVec.toNat_or, signWord_toNat, Nat.mul_comm, ← Nat.two_pow_add_eq_or_of_lt h]

/-- The three fields laid out by shifts and ORs: their sum. -/
theorem packed_toNat (s : Bool) {e f : Nat} (he : e < 2 ^ 15) (hf : f < 2 ^ 112) :
    (signWord s ||| (BitVec.ofNat 128 e <<< 112) ||| BitVec.ofNat 128 f).toNat =
      s.toNat * 2 ^ 127 + e * 2 ^ 112 + f := by
  have h1 : (BitVec.ofNat 128 e <<< 112 : Word).toNat = 2 ^ 112 * e := by
    rw [BitVec.toNat_shiftLeft, BitVec.toNat_ofNat, Nat.shiftLeft_eq, Nat.mod_eq_of_lt (a := e) (by omega),
      Nat.mod_eq_of_lt (by omega), Nat.mul_comm]
  have h2 : (BitVec.ofNat 128 f : Word).toNat = f := by
    rw [BitVec.toNat_ofNat]; omega
  have h3 : (BitVec.ofNat 128 e <<< 112 ||| BitVec.ofNat 128 f : Word).toNat = 2 ^ 112 * e + f := by
    rw [BitVec.toNat_or, h1, h2, ← Nat.two_pow_add_eq_or_of_lt hf]
  rw [BitVec.or_assoc, signWord_or_toNat s (by rw [h3]; omega), h3]
  omega

/-- `Encode` as a number: every bit of the significand above bit 111 is dropped (40_codec_classifier.md R61). -/
theorem encodeFields_toNat (s : Bool) (e : BitVec 15) (w : Word) :
    (encodeFields s e w).toNat = s.toNat * 2 ^ 127 + e.toNat * 2 ^ 112 + w.toNat % 2 ^ 112 := by
  have h1 : (e.setWidth 128 : Word) = BitVec.ofNat 128 e.toNat := by
    apply BitVec.eq_of_toNat_eq; simp
  have h2 : ((w.extractLsb' 0 112).setWidth 128 : Word) = BitVec.ofNat 128 (w.toNat % 2 ^ 112) := by
    apply BitVec.eq_of_toNat_eq; simp [BitVec.extractLsb'_toNat]
  rw [encodeFields, h1, h2, packed_toNat s e.isLt (Nat.mod_lt _ (by decide))]

/-- The significand of `Decode` as a number: the implicit bit for a normal pattern alone (R59, R60). -/
theorem significand_toNat (v : Word) :
    (decodeFields v).significand.toNat =
      if 1 ≤ (expField v).toNat ∧ (expField v).toNat ≤ 0x7FFE then 2 ^ 112 + (fracField v).toNat
      else (fracField v).toNat := by
  have hl := expField_lt v
  have h0 : expField v = 0 ↔ (expField v).toNat = 0 := by
    rw [← BitVec.toNat_inj]; rfl
  have h7 : expField v = 0x7FFF ↔ (expField v).toNat = 0x7FFF := by
    rw [← BitVec.toNat_inj]; rfl
  rw [decodeFields, BitVec.toNat_append, ← Nat.shiftLeft_add_eq_or_of_lt (fracField_lt v), Nat.shiftLeft_eq]
  by_cases c : 1 ≤ (expField v).toNat ∧ (expField v).toNat ≤ 0x7FFE
  · have d : expField v ≠ 0 ∧ expField v ≠ 0x7FFF := ⟨by rw [ne_eq, h0]; omega, by rw [ne_eq, h7]; omega⟩
    rw [if_pos c, decide_eq_true d]
    simp
  · have d : ¬ (expField v ≠ 0 ∧ expField v ≠ 0x7FFF) := by rw [ne_eq, ne_eq, h0, h7]; omega
    rw [if_neg c, decide_eq_false d]
    simp

/-! ### Categories -/

theorem classify_cases (v : Word) :
    classify v =
      if (expField v).toNat = 0 then (if (fracField v).toNat = 0 then .zero else .subnormal)
      else if (expField v).toNat ≠ 0x7FFF then .normal
      else if (fracField v).toNat = 0 then .infinity
      else if 2 ^ 111 ≤ (fracField v).toNat then .quietNaN
      else .signalingNaN := by
  have h0 : expField v = 0 ↔ (expField v).toNat = 0 := by
    rw [← BitVec.toNat_inj]; rfl
  have h1 : expField v = 0x7FFF ↔ (expField v).toNat = 0x7FFF := by
    rw [← BitVec.toNat_inj]; rfl
  have h2 : fracField v = 0 ↔ (fracField v).toNat = 0 := by
    rw [← BitVec.toNat_inj]; rfl
  have h3 : (fracField v).getLsbD 111 = true ↔ 2 ^ 111 ≤ (fracField v).toNat := by
    have := fracField_lt v
    rw [BitVec.getLsbD, Nat.testBit_eq_decide_div_mod_eq, decide_eq_true_iff]
    omega
  simp only [classify, h0, h1, h2, h3, ne_eq]

theorem isZero_iff (v : Word) : isZero v = true ↔ (expField v).toNat = 0 ∧ (fracField v).toNat = 0 := by
  rw [isZero, decide_eq_true_iff, classify_cases]
  split_ifs <;> simp_all

theorem isInf_iff (v : Word) : isInf v = true ↔ (expField v).toNat = 0x7FFF ∧ (fracField v).toNat = 0 := by
  rw [isInf, decide_eq_true_iff, classify_cases]
  split_ifs <;> simp_all

theorem isNaN_iff (v : Word) : isNaN v = true ↔ (expField v).toNat = 0x7FFF ∧ (fracField v).toNat ≠ 0 := by
  rw [isNaN, Bool.or_eq_true, decide_eq_true_iff, decide_eq_true_iff, classify_cases]
  split_ifs <;> simp_all

theorem isFinite_iff (v : Word) : isFinite v = true ↔ (expField v).toNat ≠ 0x7FFF := by
  rw [isFinite, Bool.or_eq_true, Bool.or_eq_true, decide_eq_true_iff, decide_eq_true_iff, decide_eq_true_iff,
    classify_cases]
  split_ifs <;> simp_all

theorem isFinite_of_isZero {v : Word} (h : isZero v = true) : isFinite v = true := by
  rw [isZero_iff] at h; rw [isFinite_iff]; omega

/-- A finite pattern is neither an infinity nor a NaN. -/
theorem not_special_of_isFinite {v : Word} (h : isFinite v = true) : isInf v = false ∧ isNaN v = false := by
  rw [isFinite_iff] at h
  constructor <;> rw [Bool.eq_false_iff, ne_eq] <;> simp [isInf_iff, isNaN_iff, h]

/-- An infinity is neither a NaN nor finite, so no zero. -/
theorem not_others_of_isInf {v : Word} (h : isInf v = true) :
    isNaN v = false ∧ isFinite v = false ∧ isZero v = false := by
  rw [isInf_iff] at h
  refine ⟨?_, ?_, ?_⟩ <;> rw [Bool.eq_false_iff, ne_eq] <;> simp [isFinite_iff, isNaN_iff, isZero_iff, h]

/-- Every pattern is finite, an infinity or a NaN. -/
theorem finite_or_inf_or_nan (v : Word) : isFinite v = true ∨ isInf v = true ∨ isNaN v = true := by
  rw [isFinite_iff, isInf_iff, isNaN_iff]; omega

/-- Quieting changes the fraction alone. -/
theorem quiet_toNat (v : Word) : (quiet v).toNat = v.toNat ||| 2 ^ 111 := by
  rw [quiet, BitVec.toNat_or]; rfl

end Sys2Proof.Machine
end

