-- ==== Sys2Proof/Laws/Integer.lean ====
section
/-! SUPPORT. The operand forms, shifts and flags of the integer primitives as numbers (41_integer_primitives.md). -/
namespace Sys2Proof.Machine

theorem join_toNat (hi lo : Word) : (join hi lo).toNat = hi.toNat * 2 ^ 128 + lo.toNat := by
  rw [join, BitVec.toNat_append, ← Nat.shiftLeft_add_eq_or_of_lt lo.isLt, Nat.shiftLeft_eq]

theorem hiHalf_toNat (w : Word256) : (hiHalf w).toNat = w.toNat / 2 ^ 128 := by
  have := w.isLt
  rw [hiHalf, BitVec.extractLsb'_toNat, Nat.shiftRight_eq_div_pow, Nat.mod_eq_of_lt (by omega)]

theorem loHalf_toNat (w : Word256) : (loHalf w).toNat = w.toNat % 2 ^ 128 := by
  rw [loHalf, BitVec.extractLsb'_toNat, Nat.shiftRight_zero]

/-- The two halves are the whole. -/
theorem halves_toNat (w : Word256) : (hiHalf w).toNat * 2 ^ 128 + (loHalf w).toNat = w.toNat := by
  rw [hiHalf_toNat, loHalf_toNat]; omega

@[simp] theorem wideResponse_r (w : Word256) (f : Bool) : (wideResponse w f).r = hiHalf w := rfl
@[simp] theorem wideResponse_r2 (w : Word256) (f : Bool) : (wideResponse w f).r2 = loHalf w := rfl
@[simp] theorem wideResponse_f (w : Word256) (f : Bool) : (wideResponse w f).f = f := rfl

/-- A right shift divides, at every amount (R75, R76, R79). -/
theorem shiftRight_toNat {w : Nat} (v : BitVec w) (n : Nat) : (shiftRight v n).toNat = v.toNat / 2 ^ n := by
  unfold shiftRight
  split_ifs with h
  · have : v.toNat < 2 ^ n := v.isLt.trans_le (Nat.pow_le_pow_right (by omega) h)
    simp [Nat.div_eq_of_lt this]
  · rw [BitVec.toNat_ushiftRight, Nat.shiftRight_eq_div_pow]

theorem bne_zero_iff {w : Nat} (v : BitVec w) : (v != 0) = true ↔ v.toNat ≠ 0 := by
  rw [bne_iff_ne, ne_eq, ← BitVec.toNat_inj]; simp

/-- The sticky bit of a right shift is set exactly when the division leaves something, at every amount (R75, R76). -/
theorem stickyRight_iff {w : Nat} (v : BitVec w) (n : Nat) : stickyRight v n = true ↔ v.toNat % 2 ^ n ≠ 0 := by
  unfold stickyRight
  split_ifs with h
  · have : v.toNat < 2 ^ n := v.isLt.trans_le (Nat.pow_le_pow_right (by omega) h)
    rw [bne_zero_iff, Nat.mod_eq_of_lt this]
  · rw [bne_iff_ne]

/-- A left shift multiplies and truncates, at every amount (R77 to R79). -/
theorem shiftLeft_toNat {w : Nat} (v : BitVec w) (n : Nat) : (shiftLeft v n).toNat = v.toNat * 2 ^ n % 2 ^ w := by
  unfold shiftLeft
  split_ifs with h
  · obtain ⟨k, rfl⟩ := Nat.exists_eq_add_of_le h
    have : v.toNat * 2 ^ (w + k) = 2 ^ w * (v.toNat * 2 ^ k) := by ring
    rw [this, Nat.mul_mod_right]; simp
  · rw [BitVec.toNat_shiftLeft, Nat.shiftLeft_eq]

/-- The lost-bits flag of a left shift is set exactly when the product leaves the width, at every amount (R77, R78). -/
theorem lostLeft_iff {w : Nat} (v : BitVec w) (n : Nat) : lostLeft v n = true ↔ 2 ^ w ≤ v.toNat * 2 ^ n := by
  unfold lostLeft
  split_ifs with h
  · rw [bne_zero_iff]
    constructor
    · intro hv
      calc 2 ^ w ≤ 2 ^ n := Nat.pow_le_pow_right (by omega) h
        _ = 1 * 2 ^ n := (one_mul _).symm
        _ ≤ v.toNat * 2 ^ n := Nat.mul_le_mul_right _ (by omega)
    · intro hv h0
      rw [h0, zero_mul] at hv
      exact absurd hv (not_le.mpr (by positivity))
  · obtain ⟨k, hk⟩ := Nat.exists_eq_add_of_lt (not_le.mp h)
    have e : w - n = k + 1 := by omega
    rw [bne_iff_ne, e, Nat.shiftRight_eq_div_pow, ne_eq, Nat.div_eq_zero_iff]
    have p : 2 ^ w = 2 ^ (k + 1) * 2 ^ n := by rw [← pow_add]; congr 1; omega
    rw [p, Nat.mul_le_mul_right_iff (by positivity)]
    have : (2 : Nat) ^ (k + 1) ≠ 0 := by positivity
    omega

/-- The nonzero-remainder signal (R72). -/
theorem nonzeroRemainder_iff (n d : Nat) : nonzeroRemainder n d = true ↔ n % d ≠ 0 := by
  rw [nonzeroRemainder, bne_iff_ne, Nat.mul_comm]
  have := Nat.div_add_mod n d
  omega

end Sys2Proof.Machine
end

