-- ==== Sys2Proof/Laws/Rounding.lean ====
section
/-! SUPPORT. The exponent, the truncated significand and the packed result of round-to-odd, each said once
(42_round_to_odd.md R82 and R83). -/
namespace Sys2Proof.Machine

theorem pow2_eq_zpow (k : ℤ) : pow2 k = (2 : ℚ) ^ k := by
  cases k with
  | ofNat n => simp [pow2]
  | negSucc n => simp [pow2, Rat.mkRat_eq_div, zpow_negSucc]

theorem zpow_two_pos (k : ℤ) : (0 : ℚ) < (2 : ℚ) ^ k := by positivity

theorem zpow_two_add (j k : ℤ) : (2 : ℚ) ^ (j + k) = (2 : ℚ) ^ j * (2 : ℚ) ^ k := zpow_add₀ (by norm_num) j k

theorem zpow_two_lt_iff {j k : ℤ} : (2 : ℚ) ^ j < (2 : ℚ) ^ k ↔ j < k := zpow_lt_zpow_iff_right₀ (by norm_num)

theorem zpow_two_le_iff {j k : ℤ} : (2 : ℚ) ^ j ≤ (2 : ℚ) ^ k ↔ j ≤ k := zpow_le_zpow_iff_right₀ (by norm_num)

/-- A power of two over a smaller one is a natural power of two. -/
theorem natPow_mul_zpow (n : ℕ) (k : ℤ) : ((2 ^ n : ℕ) : ℚ) * (2 : ℚ) ^ k = (2 : ℚ) ^ (n + k : ℤ) := by
  rw [zpow_two_add]; push_cast; rw [zpow_natCast]

/-- `floorLog2` is the floor of the logarithm. -/
theorem floorLog2_spec {x : ℚ} (hx : 0 < x) :
    (2 : ℚ) ^ floorLog2 x ≤ x ∧ x < (2 : ℚ) ^ (floorLog2 x + 1) := by
  have hn : 0 < x.num := Rat.num_pos.mpr hx
  have hd : (0 : ℚ) < x.den := by exact_mod_cast x.den_pos
  have hn0 : x.num.toNat ≠ 0 := by omega
  have hxe : x = (x.num.toNat : ℚ) / (x.den : ℚ) := by
    have h : ((x.num.toNat : ℤ) : ℚ) = (x.num : ℚ) := by rw [Int.toNat_of_nonneg hn.le]
    rw [← Int.cast_natCast, h, Rat.num_div_den]
  have n1 : ((2 ^ x.num.toNat.log2 : ℕ) : ℚ) ≤ x.num.toNat := by exact_mod_cast Nat.log2_self_le hn0
  have n2 : (x.num.toNat : ℚ) < ((2 ^ (x.num.toNat.log2 + 1) : ℕ) : ℚ) := by exact_mod_cast Nat.lt_log2_self
  have d1 : ((2 ^ x.den.log2 : ℕ) : ℚ) ≤ x.den := by exact_mod_cast Nat.log2_self_le x.den_nz
  have d2 : (x.den : ℚ) < ((2 ^ (x.den.log2 + 1) : ℕ) : ℚ) := by exact_mod_cast Nat.lt_log2_self
  have up : x < (2 : ℚ) ^ ((x.num.toNat.log2 : ℤ) - x.den.log2 + 1) := by
    conv_lhs => rw [hxe]
    rw [div_lt_iff₀ hd]
    calc (x.num.toNat : ℚ) < ((2 ^ (x.num.toNat.log2 + 1) : ℕ) : ℚ) := n2
      _ = (2 : ℚ) ^ ((x.num.toNat.log2 : ℤ) - x.den.log2 + 1) * ((2 ^ x.den.log2 : ℕ) : ℚ) := by
          rw [mul_comm, natPow_mul_zpow]; push_cast; rw [← zpow_natCast]; congr 1; push_cast; ring
      _ ≤ _ := by gcongr
  have lo : (2 : ℚ) ^ ((x.num.toNat.log2 : ℤ) - x.den.log2 - 1) < x := by
    conv_rhs => rw [hxe]
    rw [lt_div_iff₀ hd]
    calc _ < (2 : ℚ) ^ ((x.num.toNat.log2 : ℤ) - x.den.log2 - 1) * ((2 ^ (x.den.log2 + 1) : ℕ) : ℚ) := by gcongr
      _ = ((2 ^ x.num.toNat.log2 : ℕ) : ℚ) := by
          rw [mul_comm, natPow_mul_zpow]; push_cast; rw [← zpow_natCast]; congr 1; ring
      _ ≤ _ := n1
  simp only [floorLog2, pow2_eq_zpow]
  split_ifs with h
  · exact ⟨h, up⟩
  · refine ⟨lo.le, ?_⟩
    simpa using not_le.mp h

/-- The clamped exponent of R83. -/
theorem binade_spec {x : ℚ} (hx : 0 < x) :
    -16382 ≤ binade x ∧ x < (2 : ℚ) ^ (binade x + 1) ∧ (binade x = -16382 ∨ (2 : ℚ) ^ binade x ≤ x) := by
  obtain ⟨h1, h2⟩ := floorLog2_spec hx
  unfold binade
  rcases le_total (floorLog2 x) (-16382) with h | h
  · rw [max_eq_right h]
    exact ⟨le_rfl, h2.trans_le (zpow_two_le_iff.mpr (by omega)), .inl rfl⟩
  · rw [max_eq_left h]
    exact ⟨h, h2, .inr h1⟩

/-- The clamped exponent is the only one of its kind. -/
theorem binade_eq {x : ℚ} {e : ℤ} (hx : 0 < x) (he : -16382 ≤ e) (h : x < (2 : ℚ) ^ (e + 1))
    (h' : e = -16382 ∨ (2 : ℚ) ^ e ≤ x) : binade x = e := by
  obtain ⟨g, g1, g2⟩ := binade_spec hx
  have a : e ≤ binade x := by
    rcases h' with rfl | h'
    · exact g
    · have := zpow_two_lt_iff.mp (h'.trans_lt g1); omega
  have b : binade x ≤ e := by
    rcases g2 with g2 | g2
    · omega
    · have := zpow_two_lt_iff.mp (g2.trans_lt h); omega
  omega

theorem quantum_eq (x : ℚ) : quantum x = (2 : ℚ) ^ (binade x - 112) := pow2_eq_zpow _

/-- The truncated significand of R83. -/
theorem truncated_spec {x : ℚ} (hx : 0 < x) :
    (truncated x : ℚ) * quantum x ≤ x ∧ x < ((truncated x : ℚ) + 1) * quantum x := by
  have hq : 0 < quantum x := by rw [quantum_eq]; positivity
  have h0 : 0 ≤ x / quantum x := by positivity
  have hf : ((truncated x : ℤ) : ℚ) = (⌊x / quantum x⌋ : ℚ) := by
    have : (0 : ℤ) ≤ ⌊x / quantum x⌋ := Int.floor_nonneg.mpr h0
    exact_mod_cast Int.toNat_of_nonneg this
  have e : (truncated x : ℚ) = (⌊x / quantum x⌋ : ℚ) := by exact_mod_cast hf
  rw [e]
  exact ⟨(le_div_iff₀ hq).mp (Int.floor_le _), (div_lt_iff₀ hq).mp (Int.lt_floor_add_one _)⟩

/-- The truncated significand is the only one of its kind. -/
theorem truncated_eq {x : ℚ} {t : ℕ} (hx : 0 < x) (h1 : (t : ℚ) * quantum x ≤ x)
    (h2 : x < ((t : ℚ) + 1) * quantum x) : truncated x = t := by
  have hq : 0 < quantum x := by rw [quantum_eq]; positivity
  obtain ⟨g1, g2⟩ := truncated_spec hx
  have a : (t : ℚ) < truncated x + 1 := lt_of_mul_lt_mul_right (h1.trans_lt g2) hq.le
  have b : (truncated x : ℚ) < t + 1 := lt_of_mul_lt_mul_right (g1.trans_lt h2) hq.le
  have a' : t < truncated x + 1 := by exact_mod_cast a
  have b' : truncated x < t + 1 := by exact_mod_cast b
  omega

/-- The truncated significand fits 113 bits. -/
theorem truncated_lt {x : ℚ} (hx : 0 < x) : truncated x < 2 ^ 113 := by
  have hq : 0 < quantum x := by rw [quantum_eq]; positivity
  have h : (truncated x : ℚ) * quantum x < ((2 ^ 113 : ℕ) : ℚ) * quantum x := by
    rw [quantum_eq, natPow_mul_zpow, ← quantum_eq]
    refine (truncated_spec hx).1.trans_lt ((binade_spec hx).2.1.trans_le (zpow_two_le_iff.mpr ?_))
    push_cast; omega
  exact_mod_cast lt_of_mul_lt_mul_right h hq.le

/-- Above the subnormal floor the truncated significand has its top bit. -/
theorem le_truncated {x : ℚ} (hx : 0 < x) (h : (2 : ℚ) ^ binade x ≤ x) : 2 ^ 112 ≤ truncated x := by
  have hq : 0 < quantum x := by rw [quantum_eq]; positivity
  have g : ((2 ^ 112 : ℕ) : ℚ) * quantum x < ((truncated x : ℚ) + 1) * quantum x := by
    refine lt_of_le_of_lt ?_ (truncated_spec hx).2
    rw [quantum_eq, natPow_mul_zpow]
    refine (zpow_two_le_iff.mpr ?_).trans h
    push_cast; omega
  have : 2 ^ 112 < truncated x + 1 := by exact_mod_cast lt_of_mul_lt_mul_right g hq.le
  omega

theorem or_one_eq (t : ℕ) : t ||| 1 = if t % 2 = 1 then t else t + 1 := by
  have h : t ||| 1 = t / 2 * 2 + 1 := by
    apply Nat.eq_of_testBit_eq
    intro i
    rcases i with _ | i
    · simp
    · rw [Nat.testBit_or, Nat.testBit_succ, Nat.testBit_succ, Nat.testBit_succ]
      have : (t / 2 * 2 + 1) / 2 = t / 2 := by omega
      rw [this]; simp
  split_ifs <;> omega

theorem oddSignificand_spec (x : ℚ) :
    truncated x ≤ oddSignificand x ∧ oddSignificand x ≤ truncated x + 1 ∧
      (oddSignificand x = truncated x + 1 → truncated x % 2 = 0) := by
  unfold oddSignificand
  rw [or_one_eq]
  split_ifs <;> omega

theorem oddSignificand_lt {x : ℚ} (hx : 0 < x) : oddSignificand x < 2 ^ 113 := by
  have := truncated_lt hx
  obtain ⟨_, h, h'⟩ := oddSignificand_spec x
  by_cases e : oddSignificand x = truncated x + 1
  · have := h' e; omega
  · omega

/-! ### The packed result -/

/-- The pattern of a binade and a significand, as a number. -/
theorem packResult_toNat (s : Bool) {e : ℤ} {t : ℕ} (h1 : -16382 ≤ e) (h2 : e ≤ 16383) (ht : t < 2 ^ 113) :
    (packResult s e t).toNat =
      s.toNat * 2 ^ 127 + (if 2 ^ 112 ≤ t then (e + 16383).toNat * 2 ^ 112 + (t - 2 ^ 112) else t) := by
  unfold packResult
  split_ifs with h
  · rw [packed_toNat s (by omega) (by omega)]; omega
  · have ht' : (BitVec.ofNat 128 t : Word).toNat = t := by rw [BitVec.toNat_ofNat]; omega
    rw [signWord_or_toNat s (by rw [ht']; omega), ht']

/-- The fields of a packed result. -/
theorem packResult_fields (s : Bool) {e : ℤ} {t : ℕ} (h1 : -16382 ≤ e) (h2 : e ≤ 16383) (ht : t < 2 ^ 113) :
    signBit (packResult s e t) = s ∧
    (expField (packResult s e t)).toNat = (if 2 ^ 112 ≤ t then (e + 16383).toNat else 0) ∧
    (fracField (packResult s e t)).toNat = (if 2 ^ 112 ≤ t then t - 2 ^ 112 else t) := by
  apply fields_of_toNat
  · split_ifs <;> omega
  · split_ifs <;> omega
  · rw [packResult_toNat s h1 h2 ht]
    split_ifs <;> omega

theorem packResult_isFinite (s : Bool) {e : ℤ} {t : ℕ} (h1 : -16382 ≤ e) (h2 : e ≤ 16383) (ht : t < 2 ^ 113) :
    isFinite (packResult s e t) = true := by
  rw [isFinite_iff, (packResult_fields s h1 h2 ht).2.1]
  split_ifs <;> omega

/-- The magnitude of a pattern, from its fields as numbers (10_state.md R27). -/
theorem magnitude_eq (v : Word) :
    magnitude v = if (expField v).toNat = 0 then ((fracField v).toNat : ℚ) * (2 : ℚ) ^ (-16494 : ℤ)
      else ((2 ^ 112 + (fracField v).toNat : ℕ) : ℚ) * (2 : ℚ) ^ ((expField v).toNat - 16495 : ℤ) := by
  simp only [magnitude, pow2_eq_zpow, Int.natCast_eq_zero]
  split_ifs
  · norm_num
  · congr 2; ring

theorem magnitude_nonneg (v : Word) : 0 ≤ magnitude v := by
  rw [magnitude_eq]; split_ifs <;> positivity

/-- The magnitude of a packed result, the significand normal or at the subnormal floor. -/
theorem packResult_magnitude (s : Bool) {e : ℤ} {t : ℕ} (h1 : -16382 ≤ e) (h2 : e ≤ 16383) (ht : t < 2 ^ 113)
    (h : e = -16382 ∨ 2 ^ 112 ≤ t) : magnitude (packResult s e t) = (t : ℚ) * (2 : ℚ) ^ (e - 112) := by
  obtain ⟨-, he, hf⟩ := packResult_fields s h1 h2 ht
  rw [magnitude_eq, he, hf]
  by_cases c : 2 ^ 112 ≤ t
  · have c' : (2 ^ 112 + (t - 2 ^ 112)) = t := by omega
    have e' : (((e + 16383).toNat : ℕ) : ℤ) - 16495 = e - 112 := by omega
    rw [if_pos c, if_pos c, if_neg (by omega), c', e']
  · have : e = -16382 := by tauto
    rw [if_neg c, if_neg c, if_pos rfl, this]
    norm_num

theorem value_eq (v : Word) : value v = if signBit v = true then -magnitude v else magnitude v := rfl

theorem abs_value (v : Word) : |value v| = magnitude v := by
  have := magnitude_nonneg v
  rw [value_eq]
  split_ifs
  · rw [abs_neg, abs_of_nonneg this]
  · rw [abs_of_nonneg this]

theorem magnitude_eq_zero_iff (v : Word) : magnitude v = 0 ↔ isZero v = true := by
  rw [magnitude_eq, isZero_iff]
  have hp := fun k => (zpow_two_pos k).ne'
  split_ifs with c
  · simp [c]
  · simp only [mul_eq_zero, hp, or_false, c, false_and, iff_false]
    norm_cast
    omega

theorem value_eq_zero_iff (v : Word) : value v = 0 ↔ isZero v = true := by
  rw [← magnitude_eq_zero_iff, ← abs_value, abs_eq_zero]

/-- A zero pattern is its sign. -/
theorem eq_signWord_of_isZero {v : Word} (h : isZero v = true) : v = signWord (signBit v) := by
  rw [isZero_iff] at h
  apply BitVec.eq_of_toNat_eq
  rw [signWord_toNat, toNat_eq_fields v, h.1, h.2]
  omega

/-! ### Round-to-odd -/

/-- RTO from any exponent and truncated significand that fit the value. -/
theorem rto_eq (s : Bool) {x : ℚ} {e : ℤ} {t : ℕ} (hx : 0 < x) (he : -16382 ≤ e) (h : x < (2 : ℚ) ^ (e + 1))
    (h' : e = -16382 ∨ (2 : ℚ) ^ e ≤ x) (h1 : (t : ℚ) * (2 : ℚ) ^ (e - 112) ≤ x)
    (h2 : x < ((t : ℚ) + 1) * (2 : ℚ) ^ (e - 112)) :
    rto s x = packResult s e (if (t : ℚ) * (2 : ℚ) ^ (e - 112) = x then t else t ||| 1) := by
  have hb := binade_eq hx he h h'
  have hq : quantum x = (2 : ℚ) ^ (e - 112) := by rw [quantum_eq, hb]
  have ht : truncated x = t := truncated_eq hx (by rwa [hq]) (by rwa [hq])
  rw [rto, hb, oddSignificand, ht, hq]

theorem maxV_eq : maxV = (2 ^ 113 - 1) * (2 : ℚ) ^ (16271 : ℤ) := by
  have h1 : signBit maxF = false := by decide
  have h2 : (expField maxF).toNat = 0x7FFE := by decide
  have h3 : (fracField maxF).toNat = 2 ^ 112 - 1 := by decide
  rw [maxV, value_eq, h1, if_neg (by decide), magnitude_eq, h2, h3]
  norm_num

/-- Beyond MAXV in its own binade, RTO gives MAXF all the same (R82). -/
theorem rto_top (s : Bool) {x : ℚ} (h1 : maxV < x) (h2 : x < (2 : ℚ) ^ (16384 : ℤ)) : rto s x = withSign s maxF := by
  have hv : maxV = ((2 ^ 113 - 1 : ℕ) : ℚ) * (2 : ℚ) ^ ((16383 : ℤ) - 112) := by
    rw [maxV_eq]; norm_num
  have hx : 0 < x := lt_trans (by rw [hv]; positivity) h1
  have hlo : (2 : ℚ) ^ (16383 : ℤ) ≤ x := by
    refine le_trans ?_ h1.le
    have e : (2 : ℚ) ^ (16383 : ℤ) = 2 ^ 112 * (2 : ℚ) ^ (16271 : ℤ) := by
      rw [← zpow_natCast, ← zpow_two_add]; norm_num
    rw [maxV_eq, e]
    gcongr
    norm_num
  have hup : x < (((2 ^ 113 - 1 : ℕ) : ℚ) + 1) * (2 : ℚ) ^ ((16383 : ℤ) - 112) := by
    refine h2.trans_le (le_of_eq ?_)
    have : (((2 ^ 113 - 1 : ℕ) : ℚ) + 1) = ((2 ^ 113 : ℕ) : ℚ) := by norm_num
    rw [this, natPow_mul_zpow]; norm_num
  rw [rto_eq s hx (by norm_num) (by norm_num; exact h2) (.inr hlo) (by rw [← hv]; exact h1.le) hup, ← hv,
    if_neg h1.ne]
  cases s <;> decide

/-- Rounding to odd below 2^16384, overflow included, from any exponent and truncated significand that fit the value. -/
theorem roundToOdd_eq (s : Bool) {x : ℚ} {e : ℤ} {t : ℕ} (hx : 0 < x) (he : -16382 ≤ e) (he' : e ≤ 16383)
    (h : x < (2 : ℚ) ^ (e + 1)) (h' : e = -16382 ∨ (2 : ℚ) ^ e ≤ x) (h1 : (t : ℚ) * (2 : ℚ) ^ (e - 112) ≤ x)
    (h2 : x < ((t : ℚ) + 1) * (2 : ℚ) ^ (e - 112)) :
    roundToOdd s x = packResult s e (if (t : ℚ) * (2 : ℚ) ^ (e - 112) = x then t else t ||| 1) := by
  rw [← rto_eq s hx he h h' h1 h2]
  unfold roundToOdd
  split_ifs with c
  · exact (rto_top s c (h.trans_le (zpow_two_le_iff.mpr (by omega)))).symm
  · rfl

/-- From 2^16384 on, rounding gives MAXF (R82). -/
theorem roundToOdd_overflow (s : Bool) {x : ℚ} (h : (2 : ℚ) ^ (16384 : ℤ) ≤ x) : roundToOdd s x = withSign s maxF := by
  unfold roundToOdd
  rw [if_pos (lt_of_lt_of_le ?_ h)]
  have e : (2 : ℚ) ^ (16384 : ℤ) = 2 ^ 113 * (2 : ℚ) ^ (16271 : ℤ) := by
    rw [← zpow_natCast, ← zpow_two_add]; norm_num
  rw [maxV_eq, e]
  gcongr
  norm_num

/-- The binade of a value that does not overflow. -/
theorem binade_le {x : ℚ} (hx : 0 < x) (h : x ≤ maxV) : binade x ≤ 16383 := by
  rcases (binade_spec hx).2.2 with g | g
  · omega
  · have e : maxV < (2 : ℚ) ^ (16384 : ℤ) := by
      have e : (2 : ℚ) ^ (16384 : ℤ) = 2 ^ 113 * (2 : ℚ) ^ (16271 : ℤ) := by
        rw [← zpow_natCast, ← zpow_two_add]; norm_num
      rw [maxV_eq, e]; gcongr; norm_num
    have := zpow_two_lt_iff.mp ((g.trans h).trans_lt e)
    omega

/-- The exponent and the significand RTO packs, for a value that does not overflow. -/
theorem oddSignificand_bounds {x : ℚ} (hx : 0 < x) (h : x ≤ maxV) :
    -16382 ≤ binade x ∧ binade x ≤ 16383 ∧ 1 ≤ oddSignificand x ∧ oddSignificand x < 2 ^ 113 ∧
      (binade x = -16382 ∨ 2 ^ 112 ≤ oddSignificand x) := by
  obtain ⟨h1, -, h3⟩ := binade_spec hx
  obtain ⟨o1, o2, -⟩ := oddSignificand_spec x
  refine ⟨h1, binade_le hx h, ?_, oddSignificand_lt hx, ?_⟩
  · by_contra hc
    have h0 : oddSignificand x = 0 := by omega
    have ht : truncated x = 0 := by omega
    unfold oddSignificand at h0
    rw [ht] at h0
    split_ifs at h0 with c
    simp at c
    exact hx.ne c
  · rcases h3 with h3 | h3
    · exact .inl h3
    · have := le_truncated hx h3
      exact .inr (by omega)

/-- What a rounded magnitude is: a finite nonzero pattern, exact or odd, whose exponent and significand do not depend on the
sign. -/
theorem roundToOdd_spec {x : ℚ} (hx : 0 < x) :
    ∃ (e : ℤ) (t : ℕ), -16382 ≤ e ∧ e ≤ 16383 ∧ 1 ≤ t ∧ t < 2 ^ 113 ∧ (e = -16382 ∨ 2 ^ 112 ≤ t) ∧
      (∀ s, roundToOdd s x = packResult s e t) ∧ ((t : ℚ) * (2 : ℚ) ^ (e - 112) = x ∨ t % 2 = 1) := by
  by_cases h : maxV < x
  · refine ⟨16383, 2 ^ 113 - 1, by omega, by omega, by omega, by omega, .inr (by omega), fun s => ?_, .inr (by omega)⟩
    rw [roundToOdd, if_pos h]
    cases s <;> decide
  · obtain ⟨b1, b2, b3, b4, b5⟩ := oddSignificand_bounds hx (not_lt.mp h)
    refine ⟨binade x, oddSignificand x, b1, b2, b3, b4, b5, fun s => by rw [roundToOdd, if_neg h, rto], ?_⟩
    unfold oddSignificand
    rw [quantum_eq]
    split_ifs with c
    · exact .inl c
    · rw [or_one_eq]
      split_ifs <;> omega

/-- Bit 0 of a packed result is that of its significand. -/
theorem packResult_getLsbD_zero (s : Bool) {e : ℤ} {t : ℕ} (h1 : -16382 ≤ e) (h2 : e ≤ 16383) (ht : t < 2 ^ 113) :
    (packResult s e t).getLsbD 0 = decide (t % 2 = 1) := by
  rw [BitVec.getLsbD, Nat.testBit_zero, packResult_toNat s h1 h2 ht]
  congr 1
  simp only [eq_iff_iff]
  cases s <;> simp <;> split_ifs <;> omega

/-- Every finite pattern is a packed result. -/
theorem eq_packResult_of_isFinite {v : Word} (h : isFinite v = true) :
    ∃ (e : ℤ) (t : ℕ), -16382 ≤ e ∧ e ≤ 16383 ∧ t < 2 ^ 113 ∧ (e = -16382 ∨ 2 ^ 112 ≤ t) ∧
      v = packResult (signBit v) e t ∧ magnitude v = (t : ℚ) * (2 : ℚ) ^ (e - 112) := by
  rw [isFinite_iff] at h
  have hl := expField_lt v
  have fl := fracField_lt v
  by_cases c : (expField v).toNat = 0
  · refine ⟨-16382, (fracField v).toNat, by omega, by omega, by omega, .inl rfl, ?_, ?_⟩
    · apply BitVec.eq_of_toNat_eq
      rw [packResult_toNat _ (by omega) (by omega) (by omega), if_neg (by omega), toNat_eq_fields v, c]
      omega
    · rw [magnitude_eq, if_pos c]; norm_num
  · refine ⟨(expField v).toNat - 16383, 2 ^ 112 + (fracField v).toNat, by omega, by omega, by omega,
      .inr (by omega), ?_, ?_⟩
    · apply BitVec.eq_of_toNat_eq
      rw [packResult_toNat _ (by omega) (by omega) (by omega), if_pos (by omega)]
      conv_lhs => rw [toNat_eq_fields v]
      have : ((expField v).toNat - 16383 + 16383 : ℤ).toNat = (expField v).toNat := by omega
      rw [this]; omega
    · rw [magnitude_eq, if_neg c]; congr 2; ring

theorem mul_zpow_lt {t n : ℕ} {e : ℤ} (h : t < 2 ^ n) : (t : ℚ) * (2 : ℚ) ^ e < (2 : ℚ) ^ (n + e : ℤ) := by
  rw [← natPow_mul_zpow]
  have : (t : ℚ) < ((2 ^ n : ℕ) : ℚ) := by exact_mod_cast h
  have := zpow_two_pos e
  gcongr

theorem le_mul_zpow {t n : ℕ} {e : ℤ} (h : 2 ^ n ≤ t) : (2 : ℚ) ^ (n + e : ℤ) ≤ (t : ℚ) * (2 : ℚ) ^ e := by
  rw [← natPow_mul_zpow]
  have : ((2 ^ n : ℕ) : ℚ) ≤ (t : ℚ) := by exact_mod_cast h
  have := zpow_two_pos e
  gcongr

/-- RTO of a value that is exactly a significand at an exponent. -/
theorem rto_exact (s : Bool) {e : ℤ} {t : ℕ} (ht0 : 0 < t) (h1 : -16382 ≤ e) (ht : t < 2 ^ 113)
    (h : e = -16382 ∨ 2 ^ 112 ≤ t) : rto s ((t : ℚ) * (2 : ℚ) ^ (e - 112)) = packResult s e t := by
  have hz := zpow_two_pos (e - 112)
  have ht0' : (0 : ℚ) < t := by exact_mod_cast ht0
  rw [rto_eq (t := t) (e := e) s (by positivity) h1 ?_ ?_ le_rfl ?_, if_pos rfl]
  · have := mul_zpow_lt (e := e - 112) ht
    convert this using 2; push_cast; ring
  · refine h.imp id fun h => ?_
    have := le_mul_zpow (e := e - 112) h
    convert this using 2; push_cast; ring
  · gcongr; linarith

theorem maxV_pos : 0 < maxV := by
  rw [maxV_eq]; norm_num

theorem magnitude_le_maxV {v : Word} (h : isFinite v = true) : magnitude v ≤ maxV := by
  obtain ⟨e, t, h1, h2, ht, -, -, hm⟩ := eq_packResult_of_isFinite h
  have a : (t : ℚ) ≤ 2 ^ 113 - 1 := by
    have : (t : ℚ) ≤ ((2 ^ 113 - 1 : ℕ) : ℚ) := by exact_mod_cast (by omega : t ≤ 2 ^ 113 - 1)
    exact this.trans (le_of_eq (by norm_num))
  have b : (2 : ℚ) ^ (e - 112) ≤ (2 : ℚ) ^ (16271 : ℤ) := zpow_two_le_iff.mpr (by omega)
  rw [hm, maxV_eq]
  exact mul_le_mul a b (zpow_two_pos _).le (by norm_num)

/-- A nonzero value as a sign and a positive magnitude. -/
theorem exists_signed {x : ℚ} (h : x ≠ 0) : ∃ (s : Bool) (y : ℚ), 0 < y ∧ x = signed s y ∧ s = decide (x < 0) ∧ y = |x| := by
  rcases lt_or_gt_of_ne h with c | c
  · exact ⟨true, -x, by linarith, by simp [signed], by simp [c], (abs_of_neg c).symm⟩
  · exact ⟨false, x, c, by simp [signed], by simp [c.le], (abs_of_pos c).symm⟩

theorem fromReal_zero (zs : Bool) : fromReal 0 zs = signWord zs := by
  rw [fromReal, if_pos rfl]

theorem fromReal_signed (s : Bool) {x : ℚ} (hx : 0 < x) (zs : Bool) : fromReal (signed s x) zs = roundToOdd s x := by
  unfold fromReal signed
  cases s
  · simp [hx.ne', not_lt.mpr hx.le]
  · simp [hx.ne', hx]

end Sys2Proof.Machine
end

