-- ==== Sys2Proof/Laws/Datapath.lean ====
section
/-! SUPPORT. What the reference datapaths are built from, as numbers: bit lengths, the exponent and significand a core computes
with, the exact product, and the quotient of the wide divide. -/
namespace Sys2Proof.Machine

/-- The bit length of a nonzero natural (00_scope.md R13). -/
theorem bitlen_spec {m : ℕ} (h : m ≠ 0) : ∃ n, bitlen m = n + 1 ∧ 2 ^ n ≤ m ∧ m < 2 ^ (n + 1) :=
  ⟨m.log2, by simp [bitlen, h], Nat.log2_self_le h, Nat.lt_log2_self⟩

/-- The bit length from its bounds. -/
theorem bitlen_eq {m n : ℕ} (h1 : 2 ^ n ≤ m) (h2 : m < 2 ^ (n + 1)) : bitlen m = n + 1 := by
  have h : m ≠ 0 := by
    have : 0 < 2 ^ n := by positivity
    omega
  obtain ⟨k, hk, g1, g2⟩ := bitlen_spec h
  have a := (Nat.pow_lt_pow_iff_right (by omega : 1 < 2)).mp (h1.trans_lt g2)
  have b := (Nat.pow_lt_pow_iff_right (by omega : 1 < 2)).mp (g1.trans_lt h2)
  omega

theorem coreExponent_eq (v : Word) : coreExponent v = max ((expField v).toNat : ℤ) 1 := rfl

theorem coreSignificand_eq (v : Word) (h : isFinite v = true) :
    coreSignificand v =
      if (expField v).toNat = 0 then (fracField v).toNat else 2 ^ 112 + (fracField v).toNat := by
  rw [isFinite_iff] at h
  have := expField_lt v
  rw [coreSignificand, significand_toNat]
  split_ifs <;> omega

/-- The exponent and significand of a finite operand: their ranges, and the value they stand for (R97). -/
theorem core_spec {v : Word} (h : isFinite v = true) :
    1 ≤ coreExponent v ∧ coreExponent v ≤ 32766 ∧ coreSignificand v < 2 ^ 113 ∧
      (coreExponent v = 1 ∨ 2 ^ 112 ≤ coreSignificand v) ∧
      magnitude v = (coreSignificand v : ℚ) * (2 : ℚ) ^ (coreExponent v - 16495) := by
  have hf := fracField_lt v
  have he := expField_lt v
  rw [coreSignificand_eq v h, coreExponent_eq, magnitude_eq]
  rw [isFinite_iff] at h
  by_cases c : (expField v).toNat = 0
  · rw [if_pos c, if_pos c, c]
    refine ⟨by omega, by omega, by omega, .inl (by norm_num), by norm_num⟩
  · have m : max ((expField v).toNat : ℤ) 1 = (expField v).toNat := by omega
    rw [if_neg c, if_neg c, m]
    exact ⟨by omega, by omega, by omega, .inr (by omega), rfl⟩

/-- A zero operand is one with no significand. -/
theorem coreSignificand_eq_zero_iff {v : Word} (h : isFinite v = true) : coreSignificand v = 0 ↔ isZero v = true := by
  rw [coreSignificand_eq v h, isZero_iff]
  split_ifs <;> simp_all

/-- The product of two significands is exact (44_mul.md R103). -/
theorem wideProduct_eq {ma mb : ℕ} (ha : ma < 2 ^ 113) (hb : mb < 2 ^ 113) : wideProduct ma mb = ma * mb := by
  have h : ma * mb < 2 ^ 226 := by
    calc ma * mb < 2 ^ 113 * 2 ^ 113 := Nat.mul_lt_mul'' ha hb
      _ = 2 ^ 226 := by norm_num
  have h1 : (BitVec.ofNat 128 ma : Word).toNat = ma := by rw [BitVec.toNat_ofNat]; omega
  have h2 : (BitVec.ofNat 128 mb : Word).toNat = mb := by rw [BitVec.toNat_ofNat]; omega
  simp only [wideProduct, mul128x128, join_toNat, wideResponse_r, wideResponse_r2, halves_toNat, h1, h2]
  rw [BitVec.toNat_ofNat]
  exact Nat.mod_eq_of_lt (h.trans (by norm_num))

/-- Renormalising sets bit 112 (45_div.md R108). -/
theorem renormSignificand_spec {v : Word} (h : isFinite v = true) (h0 : isZero v = false) :
    2 ^ 112 ≤ renormSignificand v ∧ renormSignificand v < 2 ^ 113 := by
  have hn : coreSignificand v ≠ 0 := by
    rw [ne_eq, coreSignificand_eq_zero_iff h]; simp [h0]
  obtain ⟨n, hn', g1, g2⟩ := bitlen_spec hn
  have hlt := (core_spec h).2.2.1
  have hle : n ≤ 112 := by
    by_contra c
    have := Nat.pow_le_pow_right (by omega : 1 ≤ 2) (by omega : 113 ≤ n)
    omega
  rw [renormSignificand, renormShift, hn', Nat.shiftLeft_eq]
  have e : 113 - (n + 1) = 112 - n := by omega
  rw [e]
  constructor
  · calc 2 ^ 112 = 2 ^ n * 2 ^ (112 - n) := by rw [← pow_add]; congr 1; omega
      _ ≤ _ := Nat.mul_le_mul_right _ g1
  · calc coreSignificand v * 2 ^ (112 - n) < 2 ^ (n + 1) * 2 ^ (112 - n) := Nat.mul_lt_mul_of_pos_right g2 (by positivity)
      _ = 2 ^ 113 := by rw [← pow_add]; congr 1; omega

/-- Renormalising keeps the value (R108). -/
theorem renorm_magnitude {v : Word} (h : isFinite v = true) :
    magnitude v = (renormSignificand v : ℚ) * (2 : ℚ) ^ (renormExponent v - 16495) := by
  rw [(core_spec h).2.2.2.2, renormSignificand, renormExponent, Nat.shiftLeft_eq]
  push_cast
  rw [mul_assoc, ← zpow_natCast, ← zpow_two_add]
  congr 2; ring

end Sys2Proof.Machine
end

