-- ==== Sys2Proof/Laws/Decode.lean ====
section
/-! SUPPORT. The bits of the request word, port by port, and what the decoder makes of a request. -/
namespace Sys2Proof

/-- Which port each bit of the request word is (30_encoding.md R48). -/
theorem Request.getLsbD_word (q : Request) (i : Nat) :
    q.word.getLsbD i =
      if i < 4 then q.op.getLsbD i
      else if i < 36 then q.amt.getLsbD (i - 4)
      else if i < 164 then q.c.getLsbD (i - 36)
      else if i < 292 then q.b.getLsbD (i - 164)
      else q.a.getLsbD (i - 292) := by
  change (q.a ++ q.b ++ q.c ++ q.amt ++ q.op).getLsbD i = _
  simp only [BitVec.getLsbD_append, Nat.sub_sub]
  grind

@[simp] theorem Request.ofWord_word_op (q : Request) : (Request.ofWord q.word).op = q.op := by
  ext i hi
  simp [Request.ofWord, BitVec.getElem_extractLsb', Request.getLsbD_word]
  grind

@[simp] theorem Request.ofWord_word_amt (q : Request) : (Request.ofWord q.word).amt = q.amt := by
  ext i hi
  simp [Request.ofWord, BitVec.getElem_extractLsb', Request.getLsbD_word]
  grind

@[simp] theorem Request.ofWord_word_c (q : Request) : (Request.ofWord q.word).c = q.c := by
  ext i hi
  simp [Request.ofWord, BitVec.getElem_extractLsb', Request.getLsbD_word]
  grind

@[simp] theorem Request.ofWord_word_b (q : Request) : (Request.ofWord q.word).b = q.b := by
  ext i hi
  simp [Request.ofWord, BitVec.getElem_extractLsb', Request.getLsbD_word]
  grind

@[simp] theorem Request.ofWord_word_a (q : Request) : (Request.ofWord q.word).a = q.a := by
  ext i hi
  simp [Request.ofWord, BitVec.getElem_extractLsb', Request.getLsbD_word]
  grind

/-- Decoding a request's word is decoding its ports. -/
theorem decode_word (q : Request) : decode q.word = q.decode := by
  have h : Request.ofWord q.word = q := by
    have h1 := q.ofWord_word_op
    have h2 := q.ofWord_word_a
    have h3 := q.ofWord_word_b
    have h4 := q.ofWord_word_c
    have h5 := q.ofWord_word_amt
    generalize Request.ofWord q.word = p at *
    cases p; cases q; simp_all
  rw [decode, h]

theorem Request.getLsbD_ofWord_op (w : RequestWord) (i : Nat) :
    (Request.ofWord w).op.getLsbD i = (decide (i < 4) && w.getLsbD (0 + i)) := BitVec.getLsbD_extractLsb' ..

theorem Request.getLsbD_ofWord_amt (w : RequestWord) (i : Nat) :
    (Request.ofWord w).amt.getLsbD i = (decide (i < 32) && w.getLsbD (4 + i)) := BitVec.getLsbD_extractLsb' ..

theorem Request.getLsbD_ofWord_c (w : RequestWord) (i : Nat) :
    (Request.ofWord w).c.getLsbD i = (decide (i < 128) && w.getLsbD (36 + i)) := BitVec.getLsbD_extractLsb' ..

theorem Request.getLsbD_ofWord_b (w : RequestWord) (i : Nat) :
    (Request.ofWord w).b.getLsbD i = (decide (i < 128) && w.getLsbD (164 + i)) := BitVec.getLsbD_extractLsb' ..

theorem Request.getLsbD_ofWord_a (w : RequestWord) (i : Nat) :
    (Request.ofWord w).a.getLsbD i = (decide (i < 128) && w.getLsbD (292 + i)) := BitVec.getLsbD_extractLsb' ..

/-- The request a word names has the word's bits. -/
theorem Request.getLsbD_word_ofWord (w : RequestWord) (i : Nat) :
    (Request.ofWord w).word.getLsbD i = w.getLsbD i := by
  rw [Request.getLsbD_word, getLsbD_ofWord_op, getLsbD_ofWord_amt, getLsbD_ofWord_c, getLsbD_ofWord_b,
    getLsbD_ofWord_a]
  have h : 420 ≤ i → w.getLsbD i = false := BitVec.getLsbD_of_ge w i
  grind

/-- The op of the request an instruction stands for. -/
@[simp] theorem Instr.request_op (i : Instr) : i.request.op = i.op := by
  cases i <;> rfl

end Sys2Proof
end

