-- ==== Sys2Proof/Laws/PerInstr.lean ====
section
/-! SUPPORT. Facts stated of every instruction as syntax, one lemma per constructor: the op bits of its request word are its
row's, and its request is legal by encoding (30_encoding.md R49, R52, R55). -/
namespace Sys2Proof.Laws.Opcode

/-- The op bits of the encoded word are the row's op, and the request is well-formed. -/
def Statement (i : Instr) : Prop :=
  (encode i).extractLsb' 0 4 = i.op ∧ i.request.wellFormed = true

/-- The op bits of an encoded word are its op, whatever the instruction. -/
theorem encode_op (i : Instr) : (encode i).extractLsb' 0 4 = i.op := by
  rw [← i.request_op]; exact i.request.ofWord_word_op

theorem addQpo (a b : Word) : Statement (.addQpo a b) := ⟨encode_op _, rfl⟩
theorem subQpo (a b : Word) : Statement (.subQpo a b) := ⟨encode_op _, rfl⟩
theorem mulQpo (a b : Word) : Statement (.mulQpo a b) := ⟨encode_op _, rfl⟩
theorem divQpo (a b : Word) : Statement (.divQpo a b) := ⟨encode_op _, rfl⟩
theorem fmaQpo (a b c : Word) : Statement (.fmaQpo a b c) := ⟨encode_op _, rfl⟩
theorem classF128 (a : Word) : Statement (.classF128 a) := ⟨encode_op _, rfl⟩
theorem decodeF128 (a : Word) : Statement (.decodeF128 a) := ⟨encode_op _, rfl⟩
theorem encodeF128 (s : Bool) (e : BitVec 15) (f : BitVec 112) : Statement (.encodeF128 s e f) := ⟨encode_op _, rfl⟩
theorem mul128x128 (a b : Word) : Statement (.mul128x128 a b) := ⟨encode_op _, rfl⟩
theorem div256by128 (a b c : Word) : Statement (.div256by128 a b c) := ⟨encode_op _, rfl⟩
theorem srs128 (a : Word) (n : Amount) : Statement (.srs128 a n) := ⟨encode_op _, rfl⟩
theorem srs256 (a b : Word) (n : Amount) : Statement (.srs256 a b n) := ⟨encode_op _, rfl⟩
theorem sls128 (a : Word) (n : Amount) : Statement (.sls128 a n) := ⟨encode_op _, rfl⟩
theorem sls256 (a b : Word) (n : Amount) : Statement (.sls256 a b n) := ⟨encode_op _, rfl⟩

end Sys2Proof.Laws.Opcode
end

