-- ==== Sys2Proof/Laws/State.lean ====
section
/-! SUPPORT. One lemma per field per operation over State, so that no later proof unfolds a record update. -/
namespace Sys2Proof.Machine

section present
variable (s : State) (q : Request)
@[simp] theorem State.present_requests : (s.present q).requests = s.requests ++ [q] := rfl
@[simp] theorem State.present_answered : (s.present q).answered = s.answered := rfl
@[simp] theorem State.present_r : (s.present q).r = s.r := rfl
@[simp] theorem State.present_r2 : (s.present q).r2 = s.r2 := rfl
@[simp] theorem State.present_f : (s.present q).f = s.f := rfl
@[simp] theorem State.present_err : (s.present q).err = s.err := rfl
@[simp] theorem State.present_faultKind : (s.present q).faultKind = s.faultKind := rfl
@[simp] theorem State.present_freeCount : (s.present q).freeCount = s.freeCount := rfl
end present

section respond
variable (s : State) (p : Response)
@[simp] theorem State.respond_requests : (s.respond p).requests = s.requests := rfl
@[simp] theorem State.respond_answered : (s.respond p).answered = s.answered := rfl
@[simp] theorem State.respond_r : (s.respond p).r = p.r := rfl
@[simp] theorem State.respond_r2 : (s.respond p).r2 = p.r2 := rfl
@[simp] theorem State.respond_f : (s.respond p).f = p.f := rfl
@[simp] theorem State.respond_err : (s.respond p).err = false := rfl
@[simp] theorem State.respond_faultKind : (s.respond p).faultKind = none := rfl
@[simp] theorem State.respond_freeCount : (s.respond p).freeCount = s.freeCount := rfl
end respond

section takeFault
variable (s : State) (k : FaultKind)
@[simp] theorem State.takeFault_requests : (s.takeFault k).requests = s.requests := rfl
@[simp] theorem State.takeFault_answered : (s.takeFault k).answered = s.answered := rfl
@[simp] theorem State.takeFault_err : (s.takeFault k).err = true := rfl
@[simp] theorem State.takeFault_faultKind : (s.takeFault k).faultKind = some k := rfl
@[simp] theorem State.takeFault_freeCount : (s.takeFault k).freeCount = s.freeCount + 1 := rfl
end takeFault

section answer
variable (s : State) (p : Response) (k : FaultKind) (o : Except FaultKind Response)
@[simp] theorem State.answer_ok : s.answer (.ok p) = s.respond p := rfl
@[simp] theorem State.answer_error : s.answer (.error k) = s.takeFault k := rfl

@[simp] theorem State.answer_requests : (s.answer o).requests = s.requests := by
  cases o <;> rfl

@[simp] theorem State.answer_answered : (s.answer o).answered = s.answered := by
  cases o <;> rfl

/-- `err` is 1 exactly where the outcome is a fault (10_state.md R19). -/
@[simp] theorem State.answer_err : (s.answer o).err = (match o with | .ok _ => false | .error _ => true) := by
  cases o <;> rfl

/-- The outcome given on the outputs is the outcome they show. -/
@[simp] theorem State.response_answer : (s.answer o).response = o := by
  cases o <;> rfl
end answer

section assertReset
variable (s : State)
@[simp] theorem State.assertReset_requests : s.assertReset.requests = [] := rfl
@[simp] theorem State.assertReset_answered : s.assertReset.answered = none := rfl
@[simp] theorem State.assertReset_faultKind : s.assertReset.faultKind = none := rfl
@[simp] theorem State.assertReset_freeCount : s.assertReset.freeCount = s.freeCount + 1 := rfl
end assertReset

/-- With nothing presented, nothing is accepted. -/
theorem State.accept_nil {s : State} (h : s.requests = []) : s.accept = none := by
  simp [State.accept, h]

/-- The oldest request is the one accepted, and only the queue and the answered request change. -/
theorem State.accept_cons {s : State} {q : Request} {rest : List Request} (h : s.requests = q :: rest) :
    s.accept = some (q, { s with requests := rest, answered := some q }) := by
  simp [State.accept, h]

end Sys2Proof.Machine
end

