-- ==== Sys2Proof/Laws/Step.lean ====
section
/-! SUPPORT. What an instruction and a step can do, said once: every instruction answers its outcome, and every step answers the
oldest request. -/
namespace Sys2Proof.Machine

/-- `exec` gives the instruction's outcome on the outputs, whatever the state. -/
theorem exec_eq_answer (i : Instr) (s : State) : exec i s = .next (s.answer (outcome i)) := by
  cases i <;> rfl

theorem exec_of_ok {i : Instr} {p : Response} (h : outcome i = .ok p) (s : State) :
    exec i s = .next { s with r := p.r, r2 := p.r2, f := p.f, err := false, faultKind := none } := by
  rw [exec_eq_answer, h]; rfl

theorem resultsIn_of_outcome {i : Instr} {w : Word} (h : outcome i = .ok { r := w }) : ResultsIn i w :=
  fun s => exec_of_ok h s

/-- An instruction results in one word at most. -/
theorem ResultsIn.unique {i : Instr} {v w : Word} (hv : ResultsIn i v) (hw : ResultsIn i w) : v = w := by
  have h := (hv State.reset).symm.trans (hw State.reset)
  simpa using h

/-- Where an instruction's outcome writes `r` alone, that word is its result. -/
theorem resultsIn_iff {i : Instr} {v w : Word} (h : outcome i = .ok { r := v }) : ResultsIn i w ↔ v = w :=
  ⟨fun hw => (resultsIn_of_outcome h).unique hw, fun e => e ▸ resultsIn_of_outcome h⟩

theorem step_nil {s : State} (h : s.requests = []) : step s = .fault .noRequest := by
  simp [step, State.accept_nil h]

/-- A step answers the oldest request with its `Execute`, and does nothing else. -/
theorem step_cons {s : State} {q : Request} {rest : List Request} (h : s.requests = q :: rest) :
    step s = .next ({ s with requests := rest, answered := some q }.answer (execute q)) := by
  simp only [step, State.accept_cons h, execute]
  split <;> simp [*, exec_eq_answer]

/-- A step that answers a next state answered the oldest request. -/
theorem step_cases {s t : State} (h : step s = .next t) :
    ∃ q rest, s.requests = q :: rest ∧ t = { s with requests := rest, answered := some q }.answer (execute q) := by
  match hr : s.requests with
  | [] => simp [step_nil hr] at h
  | q :: rest =>
    rw [step_cons hr] at h
    exact ⟨q, rest, rfl, by simpa using h.symm⟩

theorem run_of_next {M : Host.Core} {s t : M.State} (h : M.step s = .next t) (n : Nat) :
    M.run (n + 1) s = M.run n t := by
  rw [Host.Core.run, h]

theorem run_of_fault {M : Host.Core} {s : M.State} {r : M.Fault} (h : M.step s = .fault r) (n : Nat) :
    M.run (n + 1) s = .fault r := by
  rw [Host.Core.run, h]

theorem run_of_refused {M : Host.Core} {s : M.State} {r : M.Refusal} (h : M.step s = .refused r) (n : Nat) :
    M.run (n + 1) s = .refused r := by
  rw [Host.Core.run, h]

/-- A run's first step where a request is presented. -/
theorem run_cons {s : State} {q : Request} {rest : List Request} (h : s.requests = q :: rest) (n : Nat) :
    Host.Core.run Sys2Proof.core (n + 1) s =
      Host.Core.run Sys2Proof.core n
        (State.answer { s with requests := rest, answered := some q } (execute q)) :=
  run_of_next (M := Sys2Proof.core) (step_cons h) n

/-- A run's first step where nothing is presented. -/
theorem run_nil {s : State} (h : s.requests = []) (n : Nat) :
    Host.Core.run Sys2Proof.core (n + 1) s = Host.Outcome.fault (σ := State) (ρ := Refusal) Fault.noRequest :=
  run_of_fault (M := Sys2Proof.core) (step_nil h) n

/-- The state that gives `Execute`'s outcome on its outputs answers the request. -/
theorem answers_answer (s : State) (q : Request) : Answers (s.answer (execute q)) q := by
  unfold Answers
  cases execute q <;> simp

end Sys2Proof.Machine
end

