-- ==== Sys2Proof/Laws/SourceLine.lean ====
section
/-! SUPPORT. What a line assembles to, said once: where its operands have words and its outputs are as many as its mnemonic's, the request `assemble` makes of them; and what a caller that awaits a response gets. -/
namespace Sys2Proof.Machine

@[simp] theorem LineOperand.word_literal (h : Held) {v : Nat} (hv : v < 2 ^ 128) :
    (LineOperand.literal v).word h = some (BitVec.ofNat 128 v) := by
  exact if_pos hv

@[simp] theorem LineOperand.word_held_self (h : Held) (n : HeldName) (w : Word) :
    (LineOperand.held n).word ((n, w) :: h) = some w := by
  simp [LineOperand.word]

theorem LineOperand.word_held_other (h : Held) {n m : HeldName} (w : Word) (hn : m ≠ n) :
    (LineOperand.held n).word ((m, w) :: h) = (LineOperand.held n).word h := by
  simp [LineOperand.word, hn]

/-- The operands' words, in order. -/
theorem mapM_word_eq_some {h : Held} {os : List LineOperand} {ws : List Word} :
    os.mapM (LineOperand.word h) = some ws ↔ List.Forall₂ (fun o w => LineOperand.word h o = some w) os ws := by
  induction os generalizing ws with
  | nil => simp [eq_comm]
  | cons o os ih =>
    simp only [List.mapM_cons, Option.bind_eq_bind, Option.pure_def, Option.bind_eq_some_iff, Option.some.injEq, ih,
      List.forall₂_cons_left_iff]
    grind

/-- A line whose operands have words and whose outputs are as many as its mnemonic's. -/
theorem SourceLine.request_of_words {h : Held} {l : SourceLine} {ws : List Word}
    (ht : l.targets.length = l.mnemonic.outputs.length)
    (hw : List.Forall₂ (fun o w => LineOperand.word h o = some w) l.operands ws) :
    l.request h = assemble l.mnemonic ws := by
  simp [SourceLine.request, ht, mapM_word_eq_some.mpr hw]

/-- Every line that assembles is such a line. -/
theorem SourceLine.request_cases {h : Held} {l : SourceLine} {q : Request} (hq : l.request h = some q) :
    l.targets.length = l.mnemonic.outputs.length ∧
    ∃ ws, List.Forall₂ (fun o w => LineOperand.word h o = some w) l.operands ws ∧ assemble l.mnemonic ws = some q := by
  unfold SourceLine.request at hq
  split at hq
  · simp at hq
  · rename_i ht
    obtain ⟨ws, hm, ha⟩ := Option.bind_eq_some_iff.mp hq
    exact ⟨not_not.mp ht, ws, mapM_word_eq_some.mp hm, ha⟩

/-- Answering the oldest requests is a run of the machine. -/
theorem answerOldest_eq_run (n : Nat) (s : State) : answerOldest n s = Host.Core.run Sys2Proof.core n s := by
  induction n generalizing s with
  | zero => rfl
  | succ n ih =>
    rw [answerOldest]
    cases h : step s with
    | next t => exact (ih t).trans (run_of_next (M := Sys2Proof.core) h n).symm
    | fault k => exact (run_of_fault (M := Sys2Proof.core) h n).symm
    | refused k => exact (run_of_refused (M := Sys2Proof.core) h n).symm

/-- Answering the requests up to and including `q` leaves the later ones, the outputs answering `q`. -/
theorem answerOldest_cases (before : List Request) {q : Request} {after : List Request} {s : State}
    (h : s.requests = before ++ q :: after) :
    ∃ t, answerOldest (before.length + 1) s = .next t ∧ t.requests = after ∧ t.answered = some q ∧ Answers t q := by
  induction before generalizing s with
  | nil => exact ⟨_, by rw [List.length_nil, answerOldest, step_cons h]; rfl, by simp, by simp, answers_answer _ q⟩
  | cons p before ih =>
    obtain ⟨t, ht, hr⟩ := ih (s := { s with requests := before ++ q :: after, answered := some p }.answer (execute p)) (by simp)
    exact ⟨t, by rw [List.length_cons, answerOldest, step_cons h]; exact ht, hr⟩

/-- The caller that awaits the response of `q` gets it, with nothing left to answer. -/
theorem State.awaitResponse_cases (s : State) (q : Request) :
    ∃ t, s.awaitResponse q = .next t ∧ t.requests = [] ∧ t.answered = some q ∧ Answers t q :=
  answerOldest_cases s.requests (by simp)

end Sys2Proof.Machine
end

