-- ==== Sys2Proof/Tests/Slice0.lean ====
section
/-! SUPPORT. Tests on fixed values, their expected results taken from the spec (95_test_vectors.md, and hand layout by
30_encoding.md R48), and a witness for the hypotheses of each statement. -/
namespace Sys2Proof.Tests
open Sys2Proof Sys2Proof.Machine

-- One declaration at a time: many small kernel checks at once need more threads than the memory limit allows.
set_option Elab.async false

/-! ### Well-formedness: the one check, on `op` (R56) -/

theorem test_wellFormed_last_op : Request.wellFormed { op := 0xD, a := 1, b := 2, c := 3, amt := 4 } = true := by decide

theorem test_illFormed_op_E : Request.wellFormed { op := 0xE, a := 1, b := 2, c := 3, amt := 4 } = false := by decide

theorem test_illFormed_op_F : Request.wellFormed { op := 0xF, a := 0, b := 0, c := 0, amt := 0 } = false := by decide

/-! ### Decoding: one word per constructor, every port filled, laid out by hand from R48 and R53 -/

theorem test_decode_addQpo : decode 0x3FFF800000000000A1A2A3A4A5A6A7A8C0014000B1B2B3B4B5B6B7B8B9BABBBC8002C1C2C3C4C5C6C7C8C9CACBCCCDCFDEADBEEF0 =
    .ok (.addQpo 0x3FFF800000000000A1A2A3A4A5A6A7A8 0xC0014000B1B2B3B4B5B6B7B8B9BABBBC) := by decide +kernel

theorem test_decode_subQpo : decode 0x3FFF800000000000A1A2A3A4A5A6A7A8C0014000B1B2B3B4B5B6B7B8B9BABBBC8002C1C2C3C4C5C6C7C8C9CACBCCCDCFDEADBEEF1 =
    .ok (.subQpo 0x3FFF800000000000A1A2A3A4A5A6A7A8 0xC0014000B1B2B3B4B5B6B7B8B9BABBBC) := by decide +kernel

theorem test_decode_mulQpo : decode 0x3FFF800000000000A1A2A3A4A5A6A7A8C0014000B1B2B3B4B5B6B7B8B9BABBBC8002C1C2C3C4C5C6C7C8C9CACBCCCDCFDEADBEEF2 =
    .ok (.mulQpo 0x3FFF800000000000A1A2A3A4A5A6A7A8 0xC0014000B1B2B3B4B5B6B7B8B9BABBBC) := by decide +kernel

theorem test_decode_divQpo : decode 0x3FFF800000000000A1A2A3A4A5A6A7A8C0014000B1B2B3B4B5B6B7B8B9BABBBC8002C1C2C3C4C5C6C7C8C9CACBCCCDCFDEADBEEF3 =
    .ok (.divQpo 0x3FFF800000000000A1A2A3A4A5A6A7A8 0xC0014000B1B2B3B4B5B6B7B8B9BABBBC) := by decide +kernel

theorem test_decode_fmaQpo : decode 0x3FFF800000000000A1A2A3A4A5A6A7A8C0014000B1B2B3B4B5B6B7B8B9BABBBC8002C1C2C3C4C5C6C7C8C9CACBCCCDCFDEADBEEF4 =
    .ok (.fmaQpo 0x3FFF800000000000A1A2A3A4A5A6A7A8 0xC0014000B1B2B3B4B5B6B7B8B9BABBBC 0x8002C1C2C3C4C5C6C7C8C9CACBCCCDCF) := by decide +kernel

theorem test_decode_classF128 : decode 0x3FFF800000000000A1A2A3A4A5A6A7A8C0014000B1B2B3B4B5B6B7B8B9BABBBC8002C1C2C3C4C5C6C7C8C9CACBCCCDCFDEADBEEF5 =
    .ok (.classF128 0x3FFF800000000000A1A2A3A4A5A6A7A8) := by decide +kernel

theorem test_decode_decodeF128 : decode 0x3FFF800000000000A1A2A3A4A5A6A7A8C0014000B1B2B3B4B5B6B7B8B9BABBBC8002C1C2C3C4C5C6C7C8C9CACBCCCDCFDEADBEEF6 =
    .ok (.decodeF128 0x3FFF800000000000A1A2A3A4A5A6A7A8) := by decide +kernel

theorem test_decode_encodeF128 : decode 0x3FFF800000000000A1A2A3A4A5A6A7A8C0014000B1B2B3B4B5B6B7B8B9BABBBC8002C1C2C3C4C5C6C7C8C9CACBCCCDCFDEADBEEF7 =
    .ok (.encodeF128 false 0x3BBC 0xC1C2C3C4C5C6C7C8C9CACBCCCDCF) := by decide +kernel

theorem test_decode_mul128x128 : decode 0x3FFF800000000000A1A2A3A4A5A6A7A8C0014000B1B2B3B4B5B6B7B8B9BABBBC8002C1C2C3C4C5C6C7C8C9CACBCCCDCFDEADBEEF8 =
    .ok (.mul128x128 0x3FFF800000000000A1A2A3A4A5A6A7A8 0xC0014000B1B2B3B4B5B6B7B8B9BABBBC) := by decide +kernel

theorem test_decode_div256by128 : decode 0x3FFF800000000000A1A2A3A4A5A6A7A8C0014000B1B2B3B4B5B6B7B8B9BABBBC8002C1C2C3C4C5C6C7C8C9CACBCCCDCFDEADBEEF9 =
    .ok (.div256by128 0x3FFF800000000000A1A2A3A4A5A6A7A8 0xC0014000B1B2B3B4B5B6B7B8B9BABBBC 0x8002C1C2C3C4C5C6C7C8C9CACBCCCDCF) := by decide +kernel

theorem test_decode_srs128 : decode 0x3FFF800000000000A1A2A3A4A5A6A7A8C0014000B1B2B3B4B5B6B7B8B9BABBBC8002C1C2C3C4C5C6C7C8C9CACBCCCDCFDEADBEEFA =
    .ok (.srs128 0x3FFF800000000000A1A2A3A4A5A6A7A8 0xDEADBEEF) := by decide +kernel

theorem test_decode_srs256 : decode 0x3FFF800000000000A1A2A3A4A5A6A7A8C0014000B1B2B3B4B5B6B7B8B9BABBBC8002C1C2C3C4C5C6C7C8C9CACBCCCDCFDEADBEEFB =
    .ok (.srs256 0x3FFF800000000000A1A2A3A4A5A6A7A8 0xC0014000B1B2B3B4B5B6B7B8B9BABBBC 0xDEADBEEF) := by decide +kernel

theorem test_decode_sls128 : decode 0x3FFF800000000000A1A2A3A4A5A6A7A8C0014000B1B2B3B4B5B6B7B8B9BABBBC8002C1C2C3C4C5C6C7C8C9CACBCCCDCFDEADBEEFC =
    .ok (.sls128 0x3FFF800000000000A1A2A3A4A5A6A7A8 0xDEADBEEF) := by decide +kernel

theorem test_decode_sls256 : decode 0x3FFF800000000000A1A2A3A4A5A6A7A8C0014000B1B2B3B4B5B6B7B8B9BABBBC8002C1C2C3C4C5C6C7C8C9CACBCCCDCFDEADBEEFD =
    .ok (.sls256 0x3FFF800000000000A1A2A3A4A5A6A7A8 0xC0014000B1B2B3B4B5B6B7B8B9BABBBC 0xDEADBEEF) := by decide +kernel

theorem test_decode_reserved_E : decode 0x3FFF800000000000A1A2A3A4A5A6A7A8C0014000B1B2B3B4B5B6B7B8B9BABBBC8002C1C2C3C4C5C6C7C8C9CACBCCCDCFDEADBEEFE =
    .error .illegalOperation := by decide +kernel

theorem test_decode_reserved_F : decode 0x3FFF800000000000A1A2A3A4A5A6A7A8C0014000B1B2B3B4B5B6B7B8B9BABBBC8002C1C2C3C4C5C6C7C8C9CACBCCCDCFDEADBEEFF =
    .error .illegalOperation := by decide +kernel

theorem test_decodeTableWord_short : decodeTableWord 8 0x9 = some (.div256by128 0 0 0) := by decide +kernel

theorem test_decodeTableWord_reserved : decodeTableWord 424 0xE = none := by decide +kernel

/-! ### One step on one request -/

/-- The step on the word drives these outputs, with `err = 0` and nothing left to answer. -/
def drives (w : Nat) (r r2 : Word) (f : Bool) : Bool :=
  match step (State.reset.withFetchWord 420 w) with
  | .next t => t.r == r && t.r2 == r2 && t.f == f && !t.err && t.faultKind == none && t.requests == []
  | _ => false

/-- The step on the word reports this fault. -/
def faults (w : Nat) (k : FaultKind) : Bool :=
  match step (State.reset.withFetchWord 420 w) with
  | .next t => t.err && t.faultKind == some k && t.requests == []
  | _ => false

/-- 95_test_vectors.md V-ADD-18. -/
theorem test_V_ADD_18 : drives 0x000100000000000000000000000000008000000000000000000000000000000100000000000000000000000000000000000000000
    0x0000FFFFFFFFFFFFFFFFFFFFFFFFFFFF 0x0 false = true := by decide +kernel

/-- 95_test_vectors.md V-ADD-20. -/
theorem test_V_ADD_20 : drives 0x3FFF00000000000000000000000000008000000000000000000000000000000100000000000000000000000000000000000000000
    0x3FFEFFFFFFFFFFFFFFFFFFFFFFFFFFFF 0x0 false = true := by decide +kernel

/-- 95_test_vectors.md V-SUB-8. -/
theorem test_V_SUB_8 : drives 0x3FFF00000000000000000000000000003F37000000000000000000000000000000000000000000000000000000000000000000001
    0x3FFEFFFFFFFFFFFFFFFFFFFFFFFFFFFF 0x0 false = true := by decide +kernel

/-- 95_test_vectors.md V-SUB-14. -/
theorem test_V_SUB_14 : drives 0x3FFF00000000000000000000000000007FFF000000000000000000000000000100000000000000000000000000000000000000001
    0x7FFF8000000000000000000000000001 0x0 false = true := by decide +kernel

/-- 95_test_vectors.md V-MUL-10. -/
theorem test_V_MUL_10 : drives 0x3FFF00000000000000000000000000010000000000000000000000000000000100000000000000000000000000000000000000002
    0x00000000000000000000000000000001 0x0 false = true := by decide +kernel

/-- 95_test_vectors.md V-MUL-16. -/
theorem test_V_MUL_16 : drives 0x7FFF80000000000000000000000012347FFF000000000000000000000000000100000000000000000000000000000000000000002
    0x7FFF8000000000000000000000001234 0x0 false = true := by decide +kernel

/-- 95_test_vectors.md V-DIV-1. -/
theorem test_V_DIV_1 : drives 0x3FFF00000000000000000000000000004000800000000000000000000000000000000000000000000000000000000000000000003
    0x3FFD5555555555555555555555555555 0x0 false = true := by decide +kernel

/-- 95_test_vectors.md V-DIV-23. -/
theorem test_V_DIV_23 : drives 0x3FFF00000000000000000000000000007FFEFFFFFFFFFFFFFFFFFFFFFFFFFFFF00000000000000000000000000000000000000003
    0x00004000000000000000000000000001 0x0 false = true := by decide +kernel

/-- 95_test_vectors.md V-FMA-21. -/
theorem test_V_FMA_21 : drives 0x000000000000000000000000000000013FFE000000000000000000000000000080000000000000000000000000000001000000004
    0x80000000000000000000000000000001 0x0 false = true := by decide +kernel

/-- 95_test_vectors.md V-FMA-23. -/
theorem test_V_FMA_23 : drives 0x3FFF00000000000000000000000000003FFF000000000000000000000000000080000000000000000000000000000001000000004
    0x3FFEFFFFFFFFFFFFFFFFFFFFFFFFFFFF 0x0 false = true := by decide +kernel

/-- 95_test_vectors.md V-CLS-7. -/
theorem test_V_CLS_7 : drives 0xFFFEFFFFFFFFFFFFFFFFFFFFFFFFFFFF0000000000000000000000000000000000000000000000000000000000000000000000005
    0x00000000000000000000000000000002 0x0 true = true := by decide +kernel

/-- 95_test_vectors.md V-CLS-14. -/
theorem test_V_CLS_14 : drives 0x7FFF40000000000000000000000000000000000000000000000000000000000000000000000000000000000000000000000000005
    0x00000000000000000000000000000005 0x0 false = true := by decide +kernel

/-- 95_test_vectors.md V-DEC-6. -/
theorem test_V_DEC_6 : drives 0x7FFEFFFFFFFFFFFFFFFFFFFFFFFFFFFF0000000000000000000000000000000000000000000000000000000000000000000000006
    0x0001FFFFFFFFFFFFFFFFFFFFFFFFFFFF 0x7FFE false = true := by decide +kernel

/-- 95_test_vectors.md V-DEC-8. -/
theorem test_V_DEC_8 : drives 0x7FFF80000000000000000000000012340000000000000000000000000000000000000000000000000000000000000000000000006
    0x00008000000000000000000000001234 0x7FFF false = true := by decide +kernel

/-- 95_test_vectors.md V-ENC-7. -/
theorem test_V_ENC_7 : drives 0xFFFFFFFFFFFFFFFFFFFFFFFFFFFFFFFE0000000000000000FFFFFFFFFFFF8001FFFFFFFFFFFFFFFFFFFFFFFFFFFFFFFF000000007
    0x0001FFFFFFFFFFFFFFFFFFFFFFFFFFFF 0x0 false = true := by decide +kernel

/-- 95_test_vectors.md V-ENC-2. -/
theorem test_V_ENC_2 : drives 0x0000000000000000000000000000000100000000000000000000000000003FFF00010000000000000000000000000005000000007
    0xBFFF0000000000000000000000000005 0x0 false = true := by decide +kernel

/-- 95_test_vectors.md V-MULW-1. -/
theorem test_V_MULW_1 : drives 0xFFFFFFFFFFFFFFFFFFFFFFFFFFFFFFFFFFFFFFFFFFFFFFFFFFFFFFFFFFFFFFFF00000000000000000000000000000000000000008
    0xFFFFFFFFFFFFFFFFFFFFFFFFFFFFFFFE 0x1 false = true := by decide +kernel

/-- 95_test_vectors.md V-MULW-6. -/
theorem test_V_MULW_6 : drives 0x000100000000000000000000000000010001000000000000000000000000000100000000000000000000000000000000000000008
    0x00000001000000000000000000000000 0x20000000000000000000000000001 false = true := by decide +kernel

/-- 95_test_vectors.md V-DIVW-7. -/
theorem test_V_DIVW_7 : drives 0x000000000000000000000000000000020000000000000000000000000000000000000000000000000000000000000003000000009
    0xAAAAAAAAAAAAAAAAAAAAAAAAAAAAAAAB 0x0 true = true := by decide +kernel

/-- 95_test_vectors.md V-SH-4. -/
theorem test_V_SH_4 : drives 0x8000000000000000000000000000000100000000000000000000000000000000000000000000000000000000000000000000007FA
    0x00000000000000000000000000000001 0x0 true = true := by decide +kernel

/-- 95_test_vectors.md V-SH-7. -/
theorem test_V_SH_7 : drives 0xFFFFFFFFFFFFFFFFFFFFFFFFFFFFFFFF0000000000000000000000000000000000000000000000000000000000000000FFFFFFFFA
    0x00000000000000000000000000000000 0x0 true = true := by decide +kernel

/-- 95_test_vectors.md V-SH-11. -/
theorem test_V_SH_11 : drives 0xFFFFFFFFFFFFFFFFFFFFFFFFFFFFFFFFFFFFFFFFFFFFFFFFFFFFFFFFFFFFFFFF00000000000000000000000000000000000000C8B
    0x00000000000000000000000000000000 0xFFFFFFFFFFFFFF true = true := by decide +kernel

/-- 95_test_vectors.md V-SH-10. -/
theorem test_V_SH_10 : drives 0x00000000000000000000000000000001000000000000000000000000000000010000000000000000000000000000000000000080B
    0x00000000000000000000000000000000 0x1 true = true := by decide +kernel

/-- 95_test_vectors.md V-SH-13. -/
theorem test_V_SH_13 : drives 0x80000000000000000000000000000001000000000000000000000000000000000000000000000000000000000000000000000001C
    0x00000000000000000000000000000002 0x0 true = true := by decide +kernel

/-- 95_test_vectors.md V-SH-15. -/
theorem test_V_SH_15 : drives 0x00000000000000000000000000000005000000000000000000000000000000000000000000000000000000000000000000000080C
    0x00000000000000000000000000000000 0x0 true = true := by decide +kernel

/-- 95_test_vectors.md V-SH-19. -/
theorem test_V_SH_19 : drives 0xC0000000000000000000000000000000000000000000000000000000000000010000000000000000000000000000000000000001D
    0x80000000000000000000000000000000 0x2 true = true := by decide +kernel

/-- 95_test_vectors.md V-SH-21. -/
theorem test_V_SH_21 : drives 0x000000000000000000000000000000000000000000000000000000000000000200000000000000000000000000000000000000FFD
    0x00000000000000000000000000000000 0x0 true = true := by decide +kernel

/-- 95_test_vectors.md V-DIVW-11. -/
theorem test_V_DIVW_11 : faults 0x000000000000000000000000000000030000000000000000000000000000000000000000000000000000000000000003000000009
    .dividePrecondition = true := by decide +kernel

/-- 95_test_vectors.md V-ILL-3. -/
theorem test_V_ILL_3 : faults 0x3FFF00000000000000000000000000003FFF00000000000000000000000000000000000000000000000000000000000000000000E
    .illegalOperation = true := by decide +kernel

theorem test_no_request_stops : (match step State.reset with | .fault .noRequest => true | _ => false) = true := by
  decide

/-- Log entry 19, by hand from R105, R85 and R100: MINNORM / MAXF is below 2^-16494, so MINSUB, and MINSUB * MAXF is exactly
(2^113 - 1) * 2^-223, far above MINNORM. -/
theorem test_inexact_quotient_times_divisor :
    (divQpo minNorm maxF).r = minSub ∧ (mulQpo minSub maxF).r = 0x3F90FFFFFFFFFFFFFFFFFFFFFFFFFFFF := by decide +kernel

theorem test_negQpo_of_zero : (subQpo nZero pZero).r = nZero ∧ (subQpo nZero nZero).r = pZero := by decide +kernel

/-! ### Lines of the spec's programs (95_test_vectors.md) -/

/-- P4, third line. -/
theorem test_readLine_SRS_256 : readLine "(t5, t6, t7) = SRS_256      t3, t4, #112" =
    some ⟨["t5".toList, "t6".toList, "t7".toList], .SRS_256, [.held "t3".toList, .held "t4".toList, .literal 112]⟩ := by
  decide +kernel

/-- L1-2a: the output's name is `r`. -/
theorem test_readLine_ADD_QPO :
    readLine "r = ADD_QPO #0x3FFF800000000000_0000000000000000, #0x0000000000000000_0000000000000000" =
    some ⟨["r".toList], .ADD_QPO, [.literal 0x3FFF8000000000000000000000000000, .literal 0]⟩ := by decide +kernel

/-- 30_encoding.md R57: the form of DECODE_F128. -/
theorem test_readLine_DECODE_F128 : readLine "(r, r2, f)   = DECODE_F128  a" =
    some ⟨["r".toList, "r2".toList, "f".toList], .DECODE_F128, [.held "a".toList]⟩ := by decide +kernel

/-- P4, third line: its request word, the caller holding `t3` and `t4`. -/
theorem test_request_word_SRS_256 :
    ((readLine "(t5, t6, t7) = SRS_256      t3, t4, #112").bind
      (SourceLine.request [("t4".toList, 0x00020000000000000000000000000001),
        ("t3".toList, 0x00000001000000000000000000000000)])).map Request.word =
    some 0x00000001000000000000000000000000000200000000000000000000000000010000000000000000000000000000000000000070B := by
  decide +kernel

/-- P1, third line: its request word, the implicit bit of `t2` on the port `c`. -/
theorem test_request_word_ENCODE_F128 :
    ((readLine "t5           = ENCODE_F128 t4, t3, t2").bind
      (SourceLine.request [("t4".toList, 1), ("t3".toList, 0x3FFF),
        ("t2".toList, 0x00018000000000000000000000000000)])).map Request.word =
    some 0x0000000000000000000000000000000100000000000000000000000000003FFF00018000000000000000000000000000000000007 := by
  decide +kernel

/-- P1, second line: what the caller holds after it. -/
theorem test_run_DECODE_F128 :
    ((readLine "(t2, t3, t4) = DECODE_F128 #0xBFFF800000000000_0000000000000000").bind
      (fun l => runLines [l] [] State.reset)).map Prod.fst =
    some [("t4".toList, 1), ("t3".toList, 0x3FFF), ("t2".toList, 0x00018000000000000000000000000000)] := by decide +kernel

/-! ### Witnesses: the hypotheses of each statement, met by concrete states and operands, each clause at a boundary of its range -/

/-- A request ADD_QPO 1, 1 and a request that breaks the wide divide's precondition at its boundary (`a = c`). -/
def onePlusOne : Request := { op := 0x0, a := one, b := one, c := 0, amt := 0 }
def overflowingDivide : Request := { op := 0x9, a := 3, b := 0, c := 3, amt := 0 }

def six : Word := 0x40018000000000000000000000000000
def three : Word := 0x40008000000000000000000000000000
def two : Word := 0x40000000000000000000000000000000
def sNaN : Word := 0x7FFF0000000000000000000000000001

theorem witness_EncodeThenDecode : (Instr.encodeF128 true 0x7FFF 1).wellFormed = true := rfl

theorem witness_DecodeThenEncode : decode 0x2A7 = .ok (.encodeF128 false 0 0) := by decide +kernel

theorem witness_DecodeTotalByOp : (0xD : RequestWord).toNat % 16 ≤ 0xD ∧ 0xD < (0xE : RequestWord).toNat % 16 := by
  decide +kernel

theorem witness_OperandPorts : ∀ op : OpSelect, ∃ q : Request, q.op = op := fun op => ⟨⟨op, 0, 0, 0, 0⟩, rfl⟩

/-- Two words that differ in the unread ports `c` and `amt` alone. -/
theorem witness_UnreadInputsAndUnwrittenOutputs :
    (let q' : Request := { onePlusOne with c := 7, amt := 9 }
     onePlusOne.op = q'.op ∧ onePlusOne.word &&& readMask onePlusOne.op = q'.word &&& readMask onePlusOne.op ∧
       onePlusOne.word ≠ q'.word) ∧
    (∀ op : OpSelect, op.toNat ≤ 0xD →
      ∃ p, execute { op := op, a := 1, b := 0, c := 3, amt := 0 } = .ok p) := by
  refine ⟨by decide +kernel, fun op h => ?_⟩
  have : ∀ op : OpSelect, op.toNat ≤ 0xD →
      (match execute { op := op, a := 1, b := 0, c := 3, amt := 0 } with | .ok _ => true | .error _ => false) = true := by
    decide +kernel
  have g := this op h
  split at g
  · exact ⟨_, by assumption⟩
  · simp at g

theorem witness_StepRunsDecodedInstruction :
    (State.reset.present onePlusOne).requests = onePlusOne :: [] ∧
    decode onePlusOne.word = .ok (.addQpo one one) ∧ (Instr.addQpo one one).wellFormed = true := by
  refine ⟨rfl, by decide +kernel, rfl⟩

theorem witness_StepAgreesWithExecute : (State.reset.present overflowingDivide).requests = overflowingDivide :: [] := rfl

/-- Each fault at its boundary, and a request beside it that does not fault. -/
theorem witness_FaultConditions :
    faults 0xE .illegalOperation = true ∧ faults 0xF .illegalOperation = true ∧
    faults overflowingDivide.word.toNat .dividePrecondition = true ∧
    faults (Request.word { overflowingDivide with c := 0 }).toNat .dividePrecondition = true ∧
    drives (Request.word { overflowingDivide with a := 2 }).toNat 0xAAAAAAAAAAAAAAAAAAAAAAAAAAAAAAAB 0 true = true := by
  decide +kernel

theorem witness_RunsOnlyStopWithoutRequests :
    1 ≤ (State.reset.present onePlusOne).requests.length ∧ State.reset.requests.length < 1 := by decide +kernel

theorem witness_ResponsesInRequestOrder :
    ((State.reset.present overflowingDivide).present onePlusOne).requests =
      [overflowingDivide] ++ onePlusOne :: [] := rfl

theorem witness_StepKeepsOutputsAnswer :
    OutputsAnswer (State.reset.present onePlusOne) ∧
    ∃ t, step (State.reset.present onePlusOne) = .next t ∧ t.answered = some onePlusOne := by
  refine ⟨(fun q hq => by simp [State.reset] at hq), ?_⟩
  have h : (State.reset.present onePlusOne).requests = [onePlusOne] := rfl
  exact ⟨_, step_cons h, by simp⟩

theorem witness_FaultHasNoFurtherEffect :
    ((State.reset.present overflowingDivide).present onePlusOne).requests = overflowingDivide :: onePlusOne :: [] ∧
    ∃ t, step ((State.reset.present overflowingDivide).present onePlusOne) = .next t ∧ t.err = true := by
  have h : ((State.reset.present overflowingDivide).present onePlusOne).requests =
      overflowingDivide :: [onePlusOne] := rfl
  have e : execute overflowingDivide = .error .dividePrecondition := rfl
  exact ⟨h, _, step_cons h, by rw [e]; rfl⟩

theorem witness_SameRequestSameResponse :
    ((State.reset.present onePlusOne).present onePlusOne).requests = onePlusOne :: onePlusOne :: [] := rfl

theorem witness_FirstRequestAfterReset :
    ((State.reset.present onePlusOne).present overflowingDivide).requests = onePlusOne :: [overflowingDivide] := rfl

theorem witness_FloatingPointNeverFaults :
    Instr.divQpo one pZero ∈ [Instr.addQpo one pZero, .subQpo one pZero, .mulQpo one pZero, .divQpo one pZero,
      .fmaQpo one pZero one, .classF128 one, .decodeF128 one, .encodeF128 false 0 0] := by decide +kernel

theorem witness_EncodedPattern :
    (State.reset.present { op := 0x7, a := 2, b := 0x8000, c := 1, amt := 5 }).requests =
      ⟨0x7, 2, 0x8000, 1, 5⟩ :: [] := rfl

/-- The significand of 1 with its implicit bit, and the bare fraction. -/
theorem witness_CodecRoundTrip :
    (decodeF128 one).r = 0x00010000000000000000000000000000 ∧ (0 : Word).toNat = one.toNat % 2 ^ 112 := by decide +kernel

theorem witness_QuietSetsOneBit : classify dNaN = .quietNaN ∧ isNaN sNaN = true := by decide +kernel

/-- The largest legal dividend, a zero divisor, and `a = c`. -/
theorem witness_WideDivideFoldsRemainder :
    (3 : Word).toNat ≠ 0 ∧ (2 : Word).toNat < (3 : Word).toNat ∧ (0 : Word).toNat = 0 ∧
    (3 : Word).toNat ≤ (3 : Word).toNat := by decide +kernel

theorem witness_ValueOfPattern : isFinite maxF = true ∧ isFinite minSub = true ∧ isFinite nZero = true := by decide +kernel

theorem witness_RoundToOddPattern : (0 : ℚ) < maxV ∧ maxV ≤ maxV ∧ (0 : ℚ) < 1 / 3 ∧ (1 / 3 : ℚ) ≤ maxV := by
  decide +kernel

theorem witness_RepresentableUnchanged : isFinite minSub = true ∧ value minSub ≠ 0 ∧ isFinite maxF = true ∧
    value maxF ≠ 0 := by decide +kernel

theorem witness_InexactIsOddNeverZeroNorInfinite : (1 / 3 : ℚ) ≠ 0 ∧ value (fromReal (1 / 3) false) ≠ 1 / 3 := by
  decide +kernel

theorem witness_RoundingMonotoneAndSymmetric : (0 : ℚ) ≤ 1 / 3 := by norm_num

theorem witness_OverflowClamps : maxV < |maxV + 1| ∧ maxV < maxV + 1 ∧ maxV + 1 < (2 : ℚ) ^ (16384 : ℤ) := by
  have h := maxV_pos
  refine ⟨by rw [abs_of_pos (by linarith)]; linarith, by linarith, ?_⟩
  rw [← pow2_eq_zpow]
  decide +kernel

theorem witness_UnderflowIsGradual :
    value maxSub ≠ 0 ∧ |value maxSub| < (2 : ℚ) ^ (-16382 : ℤ) ∧
    value minSub / 2 ≠ 0 ∧ |value minSub / 2| < (2 : ℚ) ^ (-16494 : ℤ) := by
  have h1 : (0 : ℚ) < value maxSub := by decide +kernel
  have h2 : (0 : ℚ) < value minSub / 2 := by decide +kernel
  rw [abs_of_pos h1, abs_of_pos h2, ← pow2_eq_zpow, ← pow2_eq_zpow]
  decide +kernel

/-- An inexact value whose significand loses exactly one bit, and an exact one that is shifted left. -/
theorem witness_FinishRoundsToOdd :
    (1 ≤ 2 ^ 113 ∧ ((2 ^ 113 : ℕ) : ℚ) * (2 : ℚ) ^ (0 : ℤ) ≤ 2 ^ 113 + 1 / 2 ∧
      (2 ^ 113 + 1 / 2 : ℚ) < (((2 ^ 113 : ℕ) : ℚ) + 1) * (2 : ℚ) ^ (0 : ℤ) ∧
      (true = true ↔ (2 ^ 113 + 1 / 2 : ℚ) ≠ ((2 ^ 113 : ℕ) : ℚ) * (2 : ℚ) ^ (0 : ℤ)) ∧
      (true = true → 0 ≤ finishShift (2 ^ 113) 0)) ∧
    (1 ≤ 1 ∧ ((1 : ℕ) : ℚ) * (2 : ℚ) ^ (0 : ℤ) ≤ 1 ∧ (1 : ℚ) < (((1 : ℕ) : ℚ) + 1) * (2 : ℚ) ^ (0 : ℤ) ∧
      (false = true ↔ (1 : ℚ) ≠ ((1 : ℕ) : ℚ) * (2 : ℚ) ^ (0 : ℤ))) := by
  have h : 0 ≤ finishShift (2 ^ 113) 0 := by decide +kernel
  refine ⟨⟨by norm_num, by norm_num, by norm_num, by norm_num, fun _ => h⟩, by norm_num, by norm_num, by norm_num,
    by norm_num⟩

theorem witness_JammedStickyRoundsToOdd :
    ((2 ^ 113 : ℕ) : ℚ) * (2 : ℚ) ^ (0 : ℤ) < 2 ^ 113 + 1 / 2 ∧
    (2 ^ 113 + 1 / 2 : ℚ) < (((2 ^ 113 : ℕ) : ℚ) + 1) * (2 : ℚ) ^ (0 : ℤ) ∧ 1 ≤ finishShift (2 ^ 113 ||| 1) 0 := by
  refine ⟨by norm_num, by norm_num, by decide +kernel⟩

/-- Every row of R92, for an addition and for the subtraction of the negated operand. -/
theorem witness_AddSubDecisionTable :
    ((Instr.subQpo one nInf = .addQpo one nInf ∧ false = nInf.getLsbD 127 ∨
      Instr.subQpo one nInf = .subQpo one nInf ∧ false = !nInf.getLsbD 127)) ∧
    isNaN sNaN = true ∧ isNaN one = false ∧ isInf pInf = true ∧ isInf nInf = true ∧
    pInf.getLsbD 127 = false ∧ nInf.getLsbD 127 ≠ false ∧ isFinite maxF = true ∧ isFinite nZero = true := by decide +kernel

theorem witness_ExactZeroSumSign :
    isFinite nZero = true ∧ isFinite pZero = true ∧ value nZero + value nZero = 0 ∧ value nZero - value pZero = 0 ∧
    value one - value one = 0 ∧ value one + value (one ^^^ nZero) = 0 := by decide +kernel

theorem witness_SubtractIsAddOfNegated :
    isNaN nInf = false ∧ isNaN one = false ∧ isNaN sNaN = true ∧ isFinite nZero = true := by decide +kernel

theorem witness_AddZeroIdentity : isFinite minSub = true ∧ isZero minSub = false := by decide +kernel

theorem witness_AddAndMultiplyCommute :
    ¬ (isNaN pInf = true ∧ isNaN sNaN = true ∧ quiet pInf ≠ quiet sNaN) ∧ isNaN dNaN = true ∧ isNaN sNaN = true := by
  decide +kernel

/-- The boundary `|x| = 2 * |y|`. -/
theorem witness_CloseOperandsSubtractExactly :
    isFinite two = true ∧ isFinite one = true ∧ two.getLsbD 127 = one.getLsbD 127 ∧
    |value one| / 2 ≤ |value two| ∧ |value two| ≤ 2 * |value one| := by
  rw [abs_value, abs_value]; decide +kernel

theorem witness_AddDatapathIsExact : isFinite maxF = true ∧ isFinite (minSub ^^^ nZero) = true := by decide +kernel

/-- Every row of R100, R105 and R110: NaN, invalid, infinite, zero and finite operands. -/
theorem witness_MultiplyDecisionTable :
    isNaN sNaN = true ∧ isNaN one = false ∧ isInf nInf = true ∧ isZero pZero = true ∧ isZero nZero = true ∧
    isNaN nInf = false ∧ isZero nInf = false ∧ isFinite maxF = true ∧ isFinite minSub = true := by decide +kernel

theorem witness_MultiplyDatapathIsExact :
    isFinite minSub = true ∧ isFinite maxF = true ∧ isZero minSub = false ∧ isZero maxF = false := by decide +kernel

theorem witness_DivideDecisionTable :
    isNaN sNaN = true ∧ isNaN one = false ∧ isZero nZero = true ∧ isInf pInf = true ∧ isInf nInf = true ∧
    isFinite pZero = true ∧ isFinite one = true ∧ isZero one = false := by decide +kernel

theorem witness_DivideDatapathIsExact :
    isFinite one = true ∧ isFinite three = true ∧ isZero one = false ∧ isZero three = false := by decide +kernel

theorem witness_ExactQuotientTimesDivisor :
    isFinite six = true ∧ isZero six = false ∧ isFinite three = true ∧ isZero three = false ∧
    ResultsIn (.divQpo six three) two ∧ value two = value six / value three :=
  have h : (divQpo six three).r = two := by decide +kernel
  ⟨by decide +kernel, by decide +kernel, by decide +kernel, by decide +kernel,
    resultsIn_of_outcome (by rw [← h]; rfl), by decide +kernel⟩

theorem witness_FusedDecisionTable :
    isNaN sNaN = true ∧ isNaN one = false ∧ isInf pInf = true ∧ isZero pZero = true ∧ isNaN pInf = false ∧
    isZero one = false ∧ nInf.getLsbD 127 ≠ (pInf.getLsbD 127 ^^ one.getLsbD 127) ∧
    pInf.getLsbD 127 = (pInf.getLsbD 127 ^^ one.getLsbD 127) ∧ isFinite six = true ∧
    value two * value three + value (six ^^^ nZero) = 0 ∧ value nZero * value one + value nZero = 0 := by decide +kernel

theorem witness_FusedDatapathIsExact :
    isFinite minSub = true ∧ isFinite one = true ∧ isFinite nZero = true := by decide +kernel

theorem witness_InfinityOnlyFromInfinityOrZeroDivisor :
    Instr.divQpo one pZero ∈ [Instr.addQpo one pZero, .subQpo one pZero, .mulQpo one pZero, .divQpo one pZero,
      .fmaQpo one pZero one] ∧ ResultsIn (.divQpo one pZero) pInf ∧ isInf pInf = true :=
  have h : (divQpo one pZero).r = pInf := by decide +kernel
  ⟨by decide +kernel, resultsIn_of_outcome (by rw [← h]; rfl), by decide +kernel⟩

theorem witness_PseudoOperations : isNaN nZero = false ∧ isNaN sNaN = true ∧ (1 : Word) ≠ 0 := by decide +kernel

/-- A held name and literals at the ends of their ranges, and the largest amount; each line assembles. -/
theorem witness_LineAssemblesToOneRequest :
    List.Forall₂ (fun o w => LineOperand.word [(['h', 'i'], 5)] o = some w)
      [.held ['h', 'i'], .literal (2 ^ 128 - 1), .literal (2 ^ 32 - 1)]
      [5, BitVec.allOnes 128, (BitVec.allOnes 32).setWidth 128] ∧
    (SourceLine.request [(['h', 'i'], 5)]
      ⟨[['r'], ['r', '2'], ['f']], .SLS_256, [.held ['h', 'i'], .literal (2 ^ 128 - 1), .literal (2 ^ 32 - 1)]⟩).map Request.word =
    some (Request.word { op := 0xD, a := 5, b := BitVec.allOnes 128, c := 0, amt := BitVec.allOnes 32 }) ∧
    (2 ^ 128 - 1 : ℕ) < 2 ^ 128 ∧ (['h', 'i'] : HeldName) ≠ ['l', 'o'] ∧
    (assemble .SRS_128 [1, 0x100000000]).isNone = true := by
  refine ⟨?_, by decide +kernel, by decide +kernel, by decide +kernel, by decide +kernel⟩
  simp only [List.forall₂_cons, List.forall₂_nil_left_iff]
  decide +kernel

/-- A request waits ahead of the line (P5, third line): the name gets the line's own response. -/
theorem test_awaits_own_response :
    (runLines [⟨[['t', '2']], .ADD_QPO, [.literal one.toNat, .literal one.toNat]⟩] []
      (State.reset.present { op := 0x5, a := nInf, b := 0, c := 0, amt := 0 })).map Prod.fst =
    some [(['t', '2'], 0x40000000000000000000000000000000)] := by decide +kernel

theorem witness_IssuedLineGetsItsOwnResponse :
    SourceLine.request [] ⟨[['r']], .CLASS_F128, [.literal 0]⟩ = none ∧
    (SourceLine.request [] ⟨[['r'], ['f']], .CLASS_F128, [.literal 0]⟩).isSome = true := by decide +kernel

theorem witness_LineReceivesOutputs :
    Mnemonic.NEG_QPO ∈ [Mnemonic.ADD_QPO, .SUB_QPO, .MUL_QPO, .DIV_QPO, .FMA_QPO, .ENCODE_F128, .NEG_QPO] ∧
    Mnemonic.DIV_128BY128 ∈ [Mnemonic.CLASS_F128, .DIV_256BY128, .SRS_128, .SLS_128, .DIV_128BY128] ∧
    Mnemonic.SQR_128 ∈ [Mnemonic.MUL_128X128, .SQR_128] ∧
    Mnemonic.SLS_256 ∈ [Mnemonic.DECODE_F128, .SRS_256, .SLS_256] := by decide +kernel

end Sys2Proof.Tests
end

section
/-! PROOFS. The statements of 10_state.md: the order of the responses (O12), quieting (O25), and the values of patterns (O32, O33). -/
namespace Sys2Proof.Machine

/-! ### The order of the responses -/

/-- Settles O12: answering the oldest requests is a run, and it ends with the outputs answering `q`. -/
theorem responsesInRequestOrder : Obligations.ResponsesInRequestOrder := by
  intro s before q after h
  obtain ⟨t, ht, hrest⟩ := answerOldest_cases before h
  exact ⟨t, (answerOldest_eq_run _ s).symm.trans ht, hrest⟩

/-! ### Quieting -/

/-- The quiet bit is bit 111 (10_state.md R30). -/
theorem getLsbD_quiet (v : Word) (n : Nat) :
    (quiet v).getLsbD n = (decide (n = 111) || v.getLsbD n) := by
  have hbit : ((1 <<< 111 : Word)).getLsbD n = decide (n = 111) := by
    rw [show (1 <<< 111 : Word) = BitVec.twoPow 128 111 from rfl, BitVec.getLsbD_twoPow]
    simp [eq_comm]
  rw [quiet, BitVec.getLsbD_or, hbit, Bool.or_comm]

@[simp] theorem expField_quiet (v : Word) : expField (quiet v) = expField v := by
  apply BitVec.eq_of_getLsbD_eq
  intro i _
  simp only [expField, BitVec.getLsbD_extractLsb', getLsbD_quiet]
  rw [decide_eq_false (by omega : ¬ 112 + i = 111), Bool.false_or]

/-- The quiet bit alone makes the fraction of a quiet NaN nonzero, so a quiet NaN is known by its exponent and that bit
(10_state.md R25). -/
theorem classify_eq_quietNaN_iff (v : Word) :
    classify v = .quietNaN ↔ expField v = 0x7FFF ∧ v.getLsbD 111 = true := by
  have hbit : (fracField v).getLsbD 111 = v.getLsbD 111 := by simp [fracField]
  have hfrac : v.getLsbD 111 = true → fracField v ≠ 0 := by
    rw [← hbit]; rintro h h0; simp [h0] at h
  unfold classify
  rw [hbit]
  split_ifs <;> simp_all

theorem isNaN_expField {v : Word} (h : isNaN v = true) : expField v = 0x7FFF :=
  BitVec.eq_of_toNat_eq ((isNaN_iff v).mp h).1

theorem quiet_of_quietNaN {v : Word} (h : classify v = .quietNaN) : quiet v = v := by
  apply BitVec.eq_of_getLsbD_eq
  intro i _
  rw [getLsbD_quiet]
  by_cases hq : i = 111
  · subst hq
    simp [((classify_eq_quietNaN_iff v).mp h).2]
  · simp [hq]

theorem classify_quiet_of_isNaN {v : Word} (h : isNaN v = true) : classify (quiet v) = .quietNaN := by
  rw [classify_eq_quietNaN_iff, expField_quiet, getLsbD_quiet]
  exact ⟨isNaN_expField h, rfl⟩

/-- Settles O25: bit 111 is the one bit that changes, and a quiet NaN has it. -/
theorem quietSetsOneBit : Obligations.QuietSetsOneBit := fun v =>
  ⟨fun n _ => getLsbD_quiet v n, quiet_of_quietNaN, classify_quiet_of_isNaN⟩

/-! ### The values of patterns -/

/-- The sign as a factor, `(-1)^s` (10_state.md R27). -/
theorem value_eq_mul_magnitude (v : Word) : value v = (if 2 ^ 127 ≤ v.toNat then -1 else 1) * magnitude v := by
  have hs : signBit v = true ↔ 2 ^ 127 ≤ v.toNat := by rw [signBit_eq, decide_eq_true_iff]
  simp only [value_eq, hs]
  split_ifs
  · exact (neg_one_mul _).symm
  · exact (one_mul _).symm

/-- Settles O32: the sign, exponent and fraction are those of the pattern's number, and the magnitude is R27's in each case
of the exponent. -/
theorem valueOfPattern : Obligations.ValueOfPattern := by
  intro v _ e fr
  have he : e = (expField v).toNat := (expField_toNat v).symm
  have hfr : fr = (fracField v).toNat := (fracField_toNat v).symm
  rw [value_eq_mul_magnitude, magnitude_eq, he, hfr]
  congr 1
  split_ifs
  · norm_num
  · push_cast
    congr 2
    ring

/-- A positive pattern with exponent 0 is its fraction in units of MINSUB (10_state.md R27). -/
theorem value_of_exp_zero {v : Word} {f : ℕ} (hs : signBit v = false) (he : (expField v).toNat = 0)
    (hf : (fracField v).toNat = f) : value v = (f : ℚ) * (2 : ℚ) ^ (-16494 : ℤ) := by
  rw [value_eq, hs, if_neg Bool.false_ne_true, magnitude_eq, if_pos he, hf]

/-- A positive pattern with a nonzero exponent has the implicit bit (10_state.md R27). -/
theorem value_of_exp_ne_zero {v : Word} {e f : ℕ} (hs : signBit v = false) (he : (expField v).toNat = e) (h0 : e ≠ 0)
    (hf : (fracField v).toNat = f) : value v = ((2 ^ 112 + f : ℕ) : ℚ) * (2 : ℚ) ^ (e - 16495 : ℤ) := by
  rw [value_eq, hs, if_neg Bool.false_ne_true, magnitude_eq, he, hf, if_neg h0]

theorem value_minSub : value minSub = (2 : ℚ) ^ (-16494 : ℤ) := by
  rw [value_of_exp_zero (f := 1) (by decide) (by decide) (by decide), Nat.cast_one, one_mul]

theorem value_maxSub : value maxSub = (2 ^ 112 - 1) * (2 : ℚ) ^ (-16494 : ℤ) := by
  rw [value_of_exp_zero (f := 2 ^ 112 - 1) (by decide) (by decide) (by decide)]
  norm_num

/-- A positive pattern with a nonzero exponent and fraction 0 is a power of two. -/
theorem value_of_frac_zero {v : Word} {e : ℕ} (hs : signBit v = false) (he : (expField v).toNat = e) (h0 : e ≠ 0)
    (hf : (fracField v).toNat = 0) : value v = (2 : ℚ) ^ (e - 16383 : ℤ) := by
  rw [value_of_exp_ne_zero hs he h0 hf, Nat.add_zero, natPow_mul_zpow]
  congr 1
  push_cast
  ring

theorem value_minNorm : value minNorm = (2 : ℚ) ^ (-16382 : ℤ) := by
  rw [value_of_frac_zero (e := 1) (by decide) (by decide) (by decide) (by decide)]
  norm_num

theorem value_one : value one = 1 := by
  rw [value_of_frac_zero (e := 16383) (by decide) (by decide) (by decide) (by decide)]
  norm_num

/-- Settles O33: the finite patterns by their fields as numbers, the others by evaluation. -/
theorem namedPatternValues : Obligations.NamedPatternValues := by
  have hp : isZero pZero = true := by decide
  have hn : isZero nZero = true := by decide
  refine ⟨(value_eq_zero_iff _).mpr hp, (value_eq_zero_iff _).mpr hn, hp, hn, by decide, by decide,
    value_minSub, value_maxSub, value_minNorm, value_one, maxV_eq, maxV_eq, ?_⟩
  decide

end Sys2Proof.Machine
end

section
/-! PROOFS. The statement of 20_memory.md: the same request presented twice (O17). -/
namespace Sys2Proof.Machine

/-- A response overwrites every output and leaves no trace elsewhere: given again, ahead of another queue, it changes nothing
but that queue (20_memory.md R41). A fault does not have this: its free outputs may differ (60_exceptions.md R122). -/
theorem State.respond_again {s : State} {q : Request} (hq : s.answered = some q) (rest : List Request) (p : Response) :
    { ({ s.respond p with requests := rest, answered := some q } : State).respond p with requests := s.requests } =
      s.respond p := by
  simp [State.respond, hq]

/-- Settles O17: both steps answer with the request's `Execute`, which reads no state, so outcome and `err` agree; where it is
a response, giving it again changes only the queue. -/
theorem sameRequestSameResponse : Obligations.SameRequestSameResponse := by
  intro s q rest h
  refine ⟨_, _, step_cons h, step_cons (State.answer_requests _ _), ?_, ?_, ?_, ?_⟩
  · rw [State.response_answer, State.response_answer]
  · rw [State.answer_err, State.answer_err]
  · rw [State.answer_requests]
  · cases execute q with
    | ok p => exact fun _ => State.respond_again rfl rest p
    | error k => exact fun herr => absurd herr (by simp)

end Sys2Proof.Machine
end

section
/-! PROOFS. The statements of 30_encoding.md: the request word's layout (O3), the decoder (O4), the ports a row does not list
(O7), and the pseudo-operations (O57). -/
namespace Sys2Proof.Machine

/-! ### The request word -/

theorem toNat_append_eq_add {v w : ℕ} (x : BitVec v) (y : BitVec w) : (x ++ y).toNat = x.toNat * 2 ^ w + y.toNat := by
  rw [BitVec.toNat_append, ← Nat.shiftLeft_add_eq_or_of_lt y.isLt, Nat.shiftLeft_eq]

/-- The request word as a number (30_encoding.md R48). -/
theorem toNat_requestWord (q : Request) :
    q.word.toNat = q.a.toNat * 2 ^ 292 + q.b.toNat * 2 ^ 164 + q.c.toNat * 2 ^ 36 + q.amt.toNat * 2 ^ 4 + q.op.toNat := by
  have h : q.word.toNat =
      (((q.a.toNat * 2 ^ 128 + q.b.toNat) * 2 ^ 128 + q.c.toNat) * 2 ^ 32 + q.amt.toNat) * 2 ^ 4 + q.op.toNat := by
    simp only [← toNat_append_eq_add]
    rfl
  omega

theorem request_ext {p q : Request} (hop : p.op = q.op) (ha : p.a = q.a) (hb : p.b = q.b) (hc : p.c = q.c)
    (hamt : p.amt = q.amt) : p = q := by
  cases p
  simp_all

theorem ofWord_requestWord (q : Request) : Request.ofWord q.word = q :=
  request_ext q.ofWord_word_op q.ofWord_word_a q.ofWord_word_b q.ofWord_word_c q.ofWord_word_amt

/-- Settles O3: the word is a sum of shifted ports, unpacking reads each port back, and packing gives each bit back. -/
theorem requestWordLayout : Obligations.RequestWordLayout :=
  ⟨fun q => ⟨toNat_requestWord q, ofWord_requestWord q⟩,
    fun w => BitVec.eq_of_getLsbD_eq fun i _ => Request.getLsbD_word_ofWord w i⟩

/-! ### The decoder -/

theorem instr_wellFormed (i : Instr) : i.wellFormed = true := by
  cases i <;> rfl

/-- A legal op decodes (30_encoding.md R55). -/
theorem decode_of_op_le {q : Request} (h : q.op.toNat ≤ 0xD) : ∃ i, q.decode = .ok i := by
  unfold Request.decode
  split
  case h_15 => grind
  all_goals exact ⟨_, rfl⟩

/-- A reserved op is refused (30_encoding.md R56). -/
theorem decode_of_lt_op {q : Request} (h : 0xD < q.op.toNat) : q.decode = .error .illegalOperation := by
  unfold Request.decode
  split
  case h_15 => rfl
  all_goals omega

/-- `op` alone selects the operation (30_encoding.md R49). -/
theorem op_of_decode {q : Request} {i : Instr} (h : q.decode = .ok i) : i.op = q.op := by
  apply BitVec.eq_of_toNat_eq
  unfold Request.decode at h
  split at h
  case h_15 => cases h
  all_goals cases h; simp only [Instr.op, *]; rfl

theorem op_ofWord_toNat (w : RequestWord) : (Request.ofWord w).op.toNat = w.toNat % 16 := by
  rw [Request.ofWord, BitVec.extractLsb'_toNat, Nat.shiftRight_zero]

/-- Settles O4: the low four bits are the op; a legal op decodes to an instruction of that op, a reserved one is refused. -/
theorem decodeTotalByOp : Obligations.DecodeTotalByOp := by
  intro w
  rw [← op_ofWord_toNat]
  refine ⟨fun h => ?_, decode_of_lt_op⟩
  obtain ⟨i, hi⟩ := decode_of_op_le h
  exact ⟨i, hi, instr_wellFormed i, congrArg _ (op_of_decode hi)⟩

/-! ### Unread inputs and unwritten outputs -/

/-- The bits of each port that an operation reads, as a request of masks: the column `reads` of 30_encoding.md R53. -/
def readPorts (op : OpSelect) : Request :=
  let all := BitVec.allOnes 128
  match op.toNat with
  | 0x0 | 0x1 | 0x2 | 0x3 | 0x8 => { op := 0xF, a := all, b := all, c := 0, amt := 0 }
  | 0x4 | 0x9 => { op := 0xF, a := all, b := all, c := all, amt := 0 }
  | 0x5 | 0x6 => { op := 0xF, a := all, b := 0, c := 0, amt := 0 }
  | 0x7 =>
    { op := 0xF, a := (BitVec.allOnes 1).setWidth 128, b := (BitVec.allOnes 15).setWidth 128,
      c := (BitVec.allOnes 112).setWidth 128, amt := 0 }
  | 0xA | 0xC => { op := 0xF, a := all, b := 0, c := 0, amt := BitVec.allOnes 32 }
  | 0xB | 0xD => { op := 0xF, a := all, b := all, c := 0, amt := BitVec.allOnes 32 }
  | _ => { op := 0xF, a := 0, b := 0, c := 0, amt := 0 }

theorem ofWord_readMask (op : OpSelect) : Request.ofWord (readMask op) = readPorts op := by
  revert op
  decide +kernel

/-- The ports of a masked word are the masked ports. -/
theorem ofWord_and (w m : RequestWord) :
    Request.ofWord (w &&& m) =
      { op := (Request.ofWord w).op &&& (Request.ofWord m).op
        a := (Request.ofWord w).a &&& (Request.ofWord m).a
        b := (Request.ofWord w).b &&& (Request.ofWord m).b
        c := (Request.ofWord w).c &&& (Request.ofWord m).c
        amt := (Request.ofWord w).amt &&& (Request.ofWord m).amt } := by
  simp only [Request.ofWord, BitVec.extractLsb'_and]

/-- A field of a word survives the mask of that field. -/
theorem extractLsb'_and_allOnes {n : ℕ} (h : n ≤ 128) (v : Word) :
    (v &&& (BitVec.allOnes n).setWidth 128).extractLsb' 0 n = v.extractLsb' 0 n := by
  apply BitVec.eq_of_getLsbD_eq
  intro i hi
  have : i < 128 := by omega
  simp [hi, this]

/-- Masking every port with the bits that the operation reads changes no operand (30_encoding.md R54). -/
theorem decode_masked (q : Request) :
    Request.decode
      { op := q.op
        a := q.a &&& (readPorts q.op).a
        b := q.b &&& (readPorts q.op).b
        c := q.c &&& (readPorts q.op).c
        amt := q.amt &&& (readPorts q.op).amt } = q.decode := by
  have hsign : (q.a &&& (BitVec.allOnes 1).setWidth 128).getLsbD 0 = q.a.getLsbD 0 := by simp
  have hexp := extractLsb'_and_allOnes (n := 15) (by decide) q.b
  have hfrac := extractLsb'_and_allOnes (n := 112) (by decide) q.c
  unfold Request.decode
  split
  case h_8 h => simp only [readPorts, h, hsign, hexp, hfrac]
  all_goals rename_i h; simp only [readPorts, h, BitVec.and_allOnes]

theorem readPorts_op (op : OpSelect) : (readPorts op).op = BitVec.allOnes 4 := by
  unfold readPorts
  split <;> rfl

/-- The decoder sees only the bits that the operation reads (30_encoding.md R54). -/
theorem decode_and_readMask (q : Request) : decode (q.word &&& readMask q.op) = decode q.word := by
  rw [decode_word, ← decode_masked q, decode, ofWord_and, ofWord_readMask, ofWord_requestWord, readPorts_op,
    BitVec.and_allOnes]

/-- A request that is answered without a fault decodes to an instruction of its op, and that instruction answers it. -/
theorem exists_instr_of_execute_ok {q : Request} {p : Response} (h : execute q = .ok p) :
    ∃ i : Instr, i.op = q.op ∧ outcome i = .ok p := by
  rw [execute, decode_word] at h
  split at h
  next i hi => exact ⟨i, op_of_decode hi, h⟩
  next => cases h

/-- The wide divide writes `r` and `f` alone (30_encoding.md R53). -/
theorem div256by128_r2 {a b c : Word} {p : Response} (h : div256by128 a b c = .ok p) : p.r2 = 0 := by
  unfold div256by128 at h
  simp only at h
  split at h
  · cases h
  · cases h; rfl

/-- The outputs that an instruction's row marks 0 (30_encoding.md R53, R54). -/
theorem outcome_unwritten {i : Instr} {p : Response} (h : outcome i = .ok p) :
    (i.op.toNat ≤ 0x4 ∨ i.op = 0x7 → p.r2 = 0 ∧ p.f = false) ∧
    (i.op = 0x5 ∨ i.op = 0x9 ∨ i.op = 0xA ∨ i.op = 0xC → p.r2 = 0) ∧
    (i.op = 0x8 → p.f = false) := by
  cases i with
  | div256by128 a b c => simp [Instr.op, div256by128_r2 h]
  | _ =>
    cases h
    simp [Instr.op, addQpo, subQpo, mulQpo, divQpo, fmaQpo, classF128, encodeF128, mul128x128, srs128, sls128]

/-- Settles O7: the outcome is that of the decoded instruction, and decoding sees only the bits read; the unwritten outputs
follow from the instruction's own row. -/
theorem unreadInputsAndUnwrittenOutputs : Obligations.UnreadInputsAndUnwrittenOutputs := by
  refine ⟨fun q q' hop hw => ?_, fun q p h => ?_⟩
  · have hd : decode q.word = decode q'.word := by
      rw [← decode_and_readMask q, ← decode_and_readMask q', hw, hop]
    rw [execute, execute, hd]
  · obtain ⟨i, hop, hi⟩ := exists_instr_of_execute_ok h
    exact hop ▸ outcome_unwritten hi

/-! ### The pseudo-operations -/

/-- An infinity is its sign over PINF (10_state.md R28). -/
theorem eq_withSign_of_isInf {v : Word} (h : isInf v = true) : v = withSign (signBit v) pInf := by
  obtain ⟨hexp, hfrac⟩ := (isInf_iff v).mp h
  apply BitVec.eq_of_toNat_eq
  have hinf : pInf.toNat = 0x7FFF * 2 ^ 112 := by decide
  rw [withSign, signWord_or_toNat _ (by decide), hinf, toNat_eq_fields v, hexp, hfrac, Nat.add_zero]

/-- A finite pattern's value rounds to that pattern, the sign of a zero supplied (42_round_to_odd.md R81, R84). -/
theorem fromReal_value {v : Word} (h : isFinite v = true) : fromReal (value v) (signBit v) = v := by
  by_cases hz : isZero v = true
  · rw [(value_eq_zero_iff v).mpr hz, fromReal_zero, ← eq_signWord_of_isZero hz]
  · have hpos : 0 < magnitude v := (magnitude_nonneg v).lt_of_ne' (mt (magnitude_eq_zero_iff v).mp hz)
    obtain ⟨e, t, he, -, ht, hnorm, hpack, hmag⟩ := eq_packResult_of_isFinite h
    have ht0 : 0 < t := by
      rcases Nat.eq_zero_or_pos t with rfl | ht0
      · simp [hmag] at hpos
      · exact ht0
    rw [value, fromReal_signed _ hpos, roundToOdd, if_neg (magnitude_le_maxV h).not_gt, hmag,
      rto_exact _ ht0 he ht hnorm, ← hpack]

/-- The pattern with its sign bit inverted. -/
theorem fields_xor_nZero (v : Word) :
    signBit (v ^^^ nZero) = !signBit v ∧ expField (v ^^^ nZero) = expField v ∧
      fracField (v ^^^ nZero) = fracField v := by
  refine ⟨?_, ?_, ?_⟩
  · simp [signBit, nZero]
  · simp only [expField, nZero, BitVec.extractLsb'_xor]; simp
  · simp only [fracField, nZero, BitVec.extractLsb'_xor]; simp

theorem isInf_xor_nZero (v : Word) : isInf (v ^^^ nZero) = isInf v := by
  obtain ⟨-, hexp, hfrac⟩ := fields_xor_nZero v
  rw [Bool.eq_iff_iff, isInf_iff, isInf_iff, hexp, hfrac]

theorem isFinite_xor_nZero (v : Word) : isFinite (v ^^^ nZero) = isFinite v := by
  obtain ⟨-, hexp, -⟩ := fields_xor_nZero v
  rw [Bool.eq_iff_iff, isFinite_iff, isFinite_iff, hexp]

theorem value_xor_nZero (v : Word) : value (v ^^^ nZero) = signed (!signBit v) (magnitude v) := by
  obtain ⟨hsign, hexp, hfrac⟩ := fields_xor_nZero v
  rw [value, hsign, magnitude_eq, magnitude_eq, hexp, hfrac]

theorem isNaN_nZero : isNaN nZero = false := by decide

theorem selectNaN_nZero (v : Word) : selectNaN [nZero, v] = if isNaN v = true then some (quiet v) else none := by
  cases h : isNaN v <;> simp [selectNaN, isNaN_nZero, h]

/-- NEG_QPO is the subtraction it expands to (30_encoding.md R58). -/
theorem outcome_negQpo (a : Word) : outcome (negQpo a) = .ok { r := addSub nZero a (!signBit a) } := rfl

/-- `-0` minus a NaN is that NaN quieted (43_add_sub.md R92, 30_encoding.md R58). -/
theorem addSub_nZero_of_isNaN {a : Word} (h : isNaN a = true) : addSub nZero a (!signBit a) = quiet a := by
  rw [addSub, selectNaN_nZero, if_pos h]

/-- `-0` minus a non-NaN is that operand with its sign inverted, zeros included (43_add_sub.md R92, R93). -/
theorem addSub_nZero_of_not_isNaN {a : Word} (h : isNaN a = false) : addSub nZero a (!signBit a) = a ^^^ nZero := by
  have hsign : signBit (a ^^^ nZero) = !signBit a := (fields_xor_nZero a).1
  have hnz : isInf nZero = false := by decide
  have h0 : signBit nZero = true := by decide
  rw [addSub, selectNaN_nZero, if_neg (by simp [h])]
  simp only [hnz, Bool.false_and, Bool.false_eq_true, if_false]
  rcases finite_or_inf_or_nan a with hfin | hinf | hnan
  · have hv0 : value nZero = 0 := (value_eq_zero_iff nZero).mpr (by decide)
    rw [if_neg (by simp [not_special_of_isFinite hfin]), hv0, zero_add, ← value_xor_nZero, h0, Bool.true_and, ← hsign]
    exact fromReal_value ((isFinite_xor_nZero a).trans hfin)
  · rw [if_pos hinf, ← hsign]
    exact (eq_withSign_of_isInf ((isInf_xor_nZero a).trans hinf)).symm
  · simp [h] at hnan

theorem or_toNat_lt {n m : ℕ} (b : Bool) (hm : m ≠ 0) (h : n < 2 ^ m) : n ||| b.toNat < 2 ^ m :=
  Nat.or_lt_two_pow h (b.toNat_lt.trans_le (Nat.le_self_pow hm 2))

/-- DIV_128BY128 by a nonzero divisor: the quotient fits `r`, since the high half of the dividend is 0
(41_integer_primitives.md R72). -/
theorem outcome_div128by128 (n : Word) {d : Word} (h : d ≠ 0) :
    ∃ p : Response, outcome (div128by128 n d) = .ok p ∧ (p.f = true ↔ n.toNat % d.toNat ≠ 0) ∧
      p.r.toNat = n.toNat / d.toNat ||| p.f.toNat := by
  have hd : d.toNat ≠ 0 := by simpa [← BitVec.toNat_inj] using h
  have hn : (join 0 n).toNat = n.toNat := by rw [join_toNat]; simp
  have hpre : ¬ (d.toNat = 0 ∨ d.toNat ≤ (0 : Word).toNat) := by simp [hd]
  refine ⟨_, by simp only [outcome, div128by128, div256by128, hn]; exact if_neg hpre, nonzeroRemainder_iff _ _, ?_⟩
  rw [BitVec.toNat_ofNat, Nat.mod_eq_of_lt]
  exact or_toNat_lt _ (by decide) ((Nat.div_le_self _ _).trans_lt n.isLt)

/-- Settles O57: each request by evaluation, NEG_QPO from the table of R92, DIV_128BY128 from the wide divide. -/
theorem pseudoOperations : Obligations.PseudoOperations := by
  refine ⟨fun a => ⟨rfl, rfl, rfl⟩, fun a h => ?_, fun a h => ?_, fun a => ⟨rfl, rfl, rfl⟩, fun n d => ⟨rfl, rfl, rfl⟩,
    fun n d s h => ?_⟩
  · change ResultsIn (negQpo a) (a ^^^ nZero)
    exact (resultsIn_iff (outcome_negQpo a)).mpr (addSub_nZero_of_not_isNaN h)
  · exact (resultsIn_iff (outcome_negQpo a)).mpr (addSub_nZero_of_isNaN h)
  · obtain ⟨p, hp, hf, hr⟩ := outcome_div128by128 n h
    exact ⟨_, exec_of_ok hp s, rfl, hf, hr⟩

end Sys2Proof.Machine
end

section
/-! PROOFS. The statements of 40_codec_classifier.md on the classifier and the codec: the category code (O20), the decoded
fields (O21), the packed pattern (O22) and the round trip (O23). -/
namespace Sys2Proof.Machine

/-! ### The classifier -/

/-- The category code from the exponent and fraction numbers (40_codec_classifier.md R62, 10_state.md R25). The exponent has 15
bits, so what is above `0x7FFE` is `0x7FFF`. -/
theorem categoryCode_classify (v : Word) :
    categoryCode (classify v) =
      if (expField v).toNat = 0 then (if (fracField v).toNat = 0 then 0 else 1)
      else if (expField v).toNat ≤ 0x7FFE then 2
      else if (fracField v).toNat = 0 then 3
      else if 2 ^ 111 ≤ (fracField v).toNat then 4
      else 5 := by
  have hnormal : (expField v).toNat ≤ 0x7FFE ↔ (expField v).toNat ≠ 0x7FFF := by
    have := expField_lt v
    omega
  simp only [classify_cases, hnormal, apply_ite categoryCode]
  rfl

/-- Settles O20: the outcome is the classifier's response, whose code and sign are those of the pattern's number. -/
theorem classifierCode : Obligations.ClassifierCode := by
  intro a s e fr code
  have hcode : categoryCode (classify a) = code := by
    rw [categoryCode_classify, expField_toNat, fracField_toNat]
  rw [exec_of_ok (p := classF128 a) rfl, classF128, hcode, signBit_eq]

/-! ### Decoding -/

/-- The ports `r` and `r2` of DECODE_F128 carry the significand and the exponent zero-extended (40_codec_classifier.md R64). -/
theorem decodeF128_eq (v : Word) :
    decodeF128 v =
      { r := BitVec.ofNat 128 (decodeFields v).significand.toNat
        r2 := BitVec.ofNat 128 (expField v).toNat
        f := signBit v } := by
  rw [BitVec.ofNat_toNat, BitVec.ofNat_toNat]
  rfl

/-- Settles O21: the outcome is the decoder's response, each port the number of its field. -/
theorem decodedFields : Obligations.DecodedFields := by
  intro a s e fr
  rw [exec_of_ok (p := decodeF128 a) rfl, decodeF128_eq, significand_toNat, expField_toNat, fracField_toNat, signBit_eq]

/-! ### Encoding -/

/-- The packed pattern as a number: a fraction of 112 bits loses none (40_codec_classifier.md R61, R65). -/
theorem encodeF128_r_toNat (s : Bool) (e : BitVec 15) (f : BitVec 112) :
    (encodeF128 s e f).r.toNat = s.toNat * 2 ^ 127 + e.toNat * 2 ^ 112 + f.toNat := by
  have hf : (f.setWidth 128).toNat % 2 ^ 112 = f.toNat := by
    have := f.isLt
    rw [BitVec.toNat_setWidth]
    omega
  rw [encodeF128, encodeFields_toNat, hf]

/-- ENCODE_F128 results in the pattern it packs, in every state. -/
theorem resultsIn_encodeF128 (s : Bool) (e : BitVec 15) (f : BitVec 112) :
    ResultsIn (.encodeF128 s e f) (encodeF128 s e f).r :=
  resultsIn_of_outcome rfl

/-- The row of ENCODE_F128 in the op-select map (30_encoding.md R52, R53). -/
theorem decode_word_of_op_seven {q : Request} (h : q.op = 0x7) :
    decode q.word = .ok (.encodeF128 (q.a.getLsbD 0) (q.b.extractLsb' 0 15) (q.c.extractLsb' 0 112)) := by
  rw [decode_word, Request.decode, h]
  rfl

theorem toNat_getLsbD_zero {w : ℕ} (v : BitVec w) : (v.getLsbD 0).toNat = v.toNat % 2 := by
  rw [BitVec.getLsbD, Nat.toNat_testBit, pow_zero, Nat.div_one]

theorem toNat_extractLsb'_zero {w : ℕ} (v : BitVec w) (n : ℕ) : (v.extractLsb' 0 n).toNat = v.toNat % 2 ^ n := by
  rw [BitVec.extractLsb'_toNat, Nat.shiftRight_zero]

/-- Settles O22: the pattern is the sum of its fields, and a request's fields are its ports without the excess bits. -/
theorem encodedPattern : Obligations.EncodedPattern := by
  refine ⟨fun sign e fraction => ?_, fun s q rest h hop => ?_⟩
  · rw [← encodeF128_r_toNat, BitVec.ofNat_toNat, BitVec.setWidth_eq]
    exact resultsIn_encodeF128 sign e fraction
  · have hex : execute q = .ok (encodeF128 (q.a.getLsbD 0) (q.b.extractLsb' 0 15) (q.c.extractLsb' 0 112)) := by
      rw [execute, decode_word_of_op_seven hop]
      rfl
    refine ⟨_, step_cons h, by rw [hex]; rfl, ?_⟩
    rw [hex, State.answer_ok, State.respond_r, encodeF128_r_toNat, toNat_getLsbD_zero, toNat_extractLsb'_zero,
      toNat_extractLsb'_zero]

/-! ### The round trip -/

/-- Packing a pattern's own fields gives the pattern back (40_codec_classifier.md R67). -/
theorem encodeF128_fields (v : Word) : (encodeF128 (signBit v) (expField v) (fracField v)).r = v := by
  apply BitVec.eq_of_toNat_eq
  rw [encodeF128_r_toNat, ← toNat_eq_fields]

/-- The implicit bit is bit 112: below it the port `r` of DECODE_F128 is the fraction (40_codec_classifier.md R59, R67). -/
theorem decodeF128_r_mod (v : Word) : (decodeF128 v).r.toNat % 2 ^ 112 = (fracField v).toNat := by
  have := fracField_lt v
  rw [decodeF128_eq, significand_toNat, BitVec.toNat_ofNat]
  split_ifs <;> omega

/-- Settles O23: both forms of `c` have the pattern's fraction in their low 112 bits, so the request decodes to ENCODE_F128 of the
pattern's own fields. -/
theorem codecRoundTrip : Obligations.CodecRoundTrip := by
  intro v s
  refine ⟨_, exec_of_ok (p := decodeF128 v) rfl s, fun c amt hc => ⟨_, decode_word_of_op_seven rfl, ?_⟩⟩
  have hsign : ((BitVec.ofBool (decodeF128 v).f).setWidth 128).getLsbD 0 = signBit v := by
    simp [decodeF128_eq]
  have hexp : (decodeF128 v).r2.extractLsb' 0 15 = expField v := by
    have := expField_lt v
    apply BitVec.eq_of_toNat_eq
    rw [toNat_extractLsb'_zero, decodeF128_eq, BitVec.toNat_ofNat]
    omega
  have hfrac : c.extractLsb' 0 112 = fracField v := by
    apply BitVec.eq_of_toNat_eq
    rw [toNat_extractLsb'_zero]
    rcases hc with rfl | hc
    · exact decodeF128_r_mod v
    · rw [hc, fracField_toNat, Nat.mod_mod]
  have hres := resultsIn_encodeF128 (signBit v) (expField v) (fracField v)
  rw [encodeF128_fields] at hres
  rwa [hsign, hexp, hfrac]

end Sys2Proof.Machine
end

section
/-! PROOFS. The statements of 41_integer_primitives.md: the wide multiply (O26), the wide divide (O27), and the right shifts
(O28, O29) and left shifts (O30, O31) at every amount. -/
namespace Sys2Proof.Machine

/-! ### 256-bit results -/

/-- A 256-bit result is on `r ‖ r2` as one number, in every state (20_memory.md R39). -/
theorem exec_of_wideResponse {i : Instr} {w : Word256} {f : Bool} (h : outcome i = .ok (wideResponse w f)) (s : State) :
    exec i s = .next { s with r := hiHalf w, r2 := loHalf w, f := f, err := false, faultKind := none } ∧
    (hiHalf w).toNat * 2 ^ 128 + (loHalf w).toNat = w.toNat :=
  ⟨exec_of_ok h s, halves_toNat w⟩

/-! ### The wide multiply -/

/-- "The product of two 128-bit values always fits in 256 bits" (41_integer_primitives.md R70). -/
theorem product_lt (a b : Word) : a.toNat * b.toNat < 2 ^ 256 :=
  calc a.toNat * b.toNat < 2 ^ 128 * 2 ^ 128 := Nat.mul_lt_mul'' a.isLt b.isLt
    _ = 2 ^ 256 := (pow_add 2 128 128).symm

/-- Settles O26: the result is the product as a 256-bit word, which drops nothing of it. -/
theorem wideMultiplyExact : Obligations.WideMultiplyExact := by
  intro a b s
  obtain ⟨hexec, hval⟩ := exec_of_wideResponse (i := .mul128x128 a b) rfl s
  refine ⟨_, _, hexec, hval.trans ?_⟩
  rw [BitVec.toNat_ofNat, Nat.mod_eq_of_lt (product_lt a b)]

/-! ### The wide divide -/

/-- A high half below the divisor makes the quotient fit the port `r` (41_integer_primitives.md R72). -/
theorem wideQuotient_lt {a c : Word} (b : Word) (h : a.toNat < c.toNat) :
    (a.toNat * 2 ^ 128 + b.toNat) / c.toNat < 2 ^ 128 := by
  have hb := b.isLt
  apply Nat.div_lt_of_lt_mul
  omega

/-- The wide divide with its precondition met (41_integer_primitives.md R72). -/
theorem div256by128_of_lt {a c : Word} (b : Word) (h : a.toNat < c.toNat) :
    ∃ p : Response, div256by128 a b c = .ok p ∧ p.r2 = 0 ∧
      (p.f = true ↔ (a.toNat * 2 ^ 128 + b.toNat) % c.toNat ≠ 0) ∧
      p.r.toNat = (a.toNat * 2 ^ 128 + b.toNat) / c.toNat ||| p.f.toNat := by
  have hpre : ¬ (c.toNat = 0 ∨ c.toNat ≤ a.toNat) := by omega
  refine ⟨_, if_neg hpre, rfl, ?_, ?_⟩
  · rw [nonzeroRemainder_iff, join_toNat]
  · rw [BitVec.toNat_ofNat, join_toNat]
    exact Nat.mod_eq_of_lt (or_toNat_lt _ (by decide) (wideQuotient_lt b h))

/-- The wide divide with its precondition broken (41_integer_primitives.md R72, R73). -/
theorem div256by128_of_broken {a c : Word} (b : Word) (h : c.toNat = 0 ∨ c.toNat ≤ a.toNat) :
    div256by128 a b c = .error .dividePrecondition :=
  if_pos h

/-- Folding a bit into bit 0 changes a number only where the bit is 1 and the number even. -/
theorem or_toNat_eq (q : ℕ) (f : Bool) : q ||| f.toNat = if f = true ∧ q % 2 = 0 then q + 1 else q := by
  cases f
  · simp
  · rw [Bool.toNat_true, or_one_eq]
    rcases Nat.mod_two_eq_zero_or_one q with h | h <;> simp [h]

/-- An instruction whose outcome is a fault reports it in every state (60_exceptions.md R121 to R123). -/
theorem faultsWith_of_outcome {i : Instr} {k : FaultKind} (h : outcome i = .error k) (s : State) : FaultsWith i s k :=
  ⟨s.takeFault k, by rw [exec_eq_answer, h, State.answer_error], rfl, rfl, rfl, rfl⟩

/-- Settles O27: with the precondition met the quotient fits `r`, and the fold is R72's; with it broken the outcome is the
fault. -/
theorem wideDivideFoldsRemainder : Obligations.WideDivideFoldsRemainder := by
  refine fun a b c s => ⟨fun _ h => ?_, fun h =>
    faultsWith_of_outcome (i := .div256by128 a b c) (div256by128_of_broken b h) s⟩
  obtain ⟨p, hp, hr2, hf, hr⟩ := div256by128_of_lt b h
  refine ⟨p.r, p.f, ?_, hf, hr.trans (or_toNat_eq _ _)⟩
  rw [exec_of_ok (i := .div256by128 a b c) hp s, hr2]

/-! ### The shifts -/

/-- Settles O28: the shift divides and the sticky bit tells a nonzero remainder, at every amount. -/
theorem shiftRightSticky128 : Obligations.ShiftRightSticky128 := fun a amt s =>
  ⟨_, _, exec_of_ok (p := srs128 a amt) rfl s, shiftRight_toNat a amt.toNat, stickyRight_iff a amt.toNat⟩

/-- Settles O29: as O28, on the joined word. -/
theorem shiftRightSticky256 : Obligations.ShiftRightSticky256 := by
  intro a b amt s
  obtain ⟨hexec, hval⟩ := exec_of_wideResponse (i := .srs256 a b amt) rfl s
  refine ⟨_, _, _, hexec, hval.trans ?_, ?_⟩
  · rw [shiftRight_toNat, join_toNat, amount]
  · rw [stickyRight_iff, join_toNat, amount]

/-- Settles O30: the shift multiplies and truncates, and the flag tells that the product left the width, at every amount. -/
theorem shiftLeftLost128 : Obligations.ShiftLeftLost128 := fun a amt s =>
  ⟨_, _, exec_of_ok (p := sls128 a amt) rfl s, shiftLeft_toNat a amt.toNat, lostLeft_iff a amt.toNat⟩

/-- Settles O31: as O30, on the joined word. -/
theorem shiftLeftLost256 : Obligations.ShiftLeftLost256 := by
  intro a b amt s
  obtain ⟨hexec, hval⟩ := exec_of_wideResponse (i := .sls256 a b amt) rfl s
  refine ⟨_, _, _, hexec, hval.trans ?_, ?_⟩
  · rw [shiftLeft_toNat, join_toNat, amount]
  · rw [lostLeft_iff, join_toNat, amount]

end Sys2Proof.Machine
end

section
/-! PROOFS. The statements of 42_round_to_odd.md: RTO in numbers (O34), overflow (O38), underflow (O39), and jamming (O41). -/
namespace Sys2Proof.Machine

/-! ### RTO in numbers -/

/-- "Sticky set: force the LSB to 1", as a sum (42_round_to_odd.md R83). -/
theorem oddSignificand_eq (x : ℚ) :
    oddSignificand x =
      if (truncated x : ℚ) * (2 : ℚ) ^ (binade x - 112) = x ∨ truncated x % 2 = 1 then truncated x
      else truncated x + 1 := by
  rw [oddSignificand, quantum_eq, or_one_eq, ite_or]

/-- Settles O34: the witnesses are the clamped binade, the truncated significand and the significand that RTO packs. -/
theorem roundToOddPattern : Obligations.RoundToOddPattern := by
  intro s x hx hmax
  obtain ⟨hfloor, hlt, hge⟩ := binade_spec hx
  obtain ⟨hle, hlt'⟩ := truncated_spec hx
  rw [quantum_eq] at hle hlt'
  exact ⟨binade x, truncated x, oddSignificand x, hfloor, hlt, hge, hle, hlt', truncated_lt hx, oddSignificand_eq x,
    packResult_toNat s hfloor (binade_le hx hmax) (oddSignificand_lt hx)⟩

/-! ### Overflow and underflow -/

/-- `FromReal` of a nonzero value is its magnitude rounded to odd under its sign (42_round_to_odd.md R81). -/
theorem fromReal_of_ne_zero {x : ℚ} (hx : x ≠ 0) (zs : Bool) :
    fromReal x zs = roundToOdd (decide (x < 0)) |x| := by
  obtain ⟨s, y, hy, hxy, hs, habs⟩ := exists_signed hx
  rw [← hs, ← habs, ← fromReal_signed s hy zs, ← hxy]

/-- Settles O38: beyond MAXV the rounding is MAXF by definition, and below 2^16384 RTO's own result is the same. -/
theorem overflowClamps : Obligations.OverflowClamps := by
  refine ⟨fun x zs h => ?_, fun s x => rto_top s⟩
  have hx : x ≠ 0 := abs_pos.mp (maxV_pos.trans h)
  rw [fromReal_of_ne_zero hx, roundToOdd, if_pos h]

/-- Below MINNORM the truncated significand, at quantum 2^-16494, has no bit 112, and making it odd sets none
(42_round_to_odd.md R85). -/
theorem oddSignificand_lt_of_lt_minNorm {x : ℚ} (hx : 0 < x) (h : x < (2 : ℚ) ^ (-16382 : ℤ)) :
    oddSignificand x < 2 ^ 112 := by
  have hb : binade x = -16382 :=
    binade_eq hx le_rfl (h.trans (zpow_two_lt_iff.mpr (by norm_num))) (.inl rfl)
  have hq : quantum x = (2 : ℚ) ^ (-16494 : ℤ) := by rw [quantum_eq, hb]; norm_num
  have ht : (truncated x : ℚ) * (2 : ℚ) ^ (-16494 : ℤ) < ((2 ^ 112 : ℕ) : ℚ) * (2 : ℚ) ^ (-16494 : ℤ) :=
    calc (truncated x : ℚ) * (2 : ℚ) ^ (-16494 : ℤ) ≤ x := hq ▸ (truncated_spec hx).1
      _ < (2 : ℚ) ^ (-16382 : ℤ) := h
      _ = ((2 ^ 112 : ℕ) : ℚ) * (2 : ℚ) ^ (-16494 : ℤ) := by rw [natPow_mul_zpow]; norm_num
  have ht' : truncated x < 2 ^ 112 := by exact_mod_cast lt_of_mul_lt_mul_right ht (zpow_two_pos _).le
  obtain ⟨-, hle, heven⟩ := oddSignificand_spec x
  omega

/-- A nonzero significand below 2^112 packs to a subnormal (42_round_to_odd.md R83, 10_state.md R25). -/
theorem classify_packResult_of_lt (s : Bool) {e : ℤ} {t : ℕ} (h1 : -16382 ≤ e) (h2 : e ≤ 16383) (h0 : 1 ≤ t)
    (ht : t < 2 ^ 112) : classify (packResult s e t) = .subnormal := by
  obtain ⟨-, hexp, hfrac⟩ := packResult_fields s h1 h2 (by omega : t < 2 ^ 113)
  rw [if_neg ht.not_ge] at hexp hfrac
  rw [classify_cases, hexp, hfrac, if_pos rfl, if_neg (by omega)]

/-- A positive magnitude below MINNORM rounds to a subnormal of either sign (42_round_to_odd.md R85). -/
theorem classify_roundToOdd_of_lt_minNorm (s : Bool) {x : ℚ} (hx : 0 < x) (h : x < (2 : ℚ) ^ (-16382 : ℤ)) :
    classify (roundToOdd s x) = .subnormal := by
  have hmax : x ≤ maxV := by
    rw [← value_minNorm] at h
    have hval : value minNorm ≤ maxV := (le_abs_self _).trans (abs_value minNorm ▸ magnitude_le_maxV (by decide))
    exact h.le.trans hval
  obtain ⟨hfloor, hle, hpos, -, -⟩ := oddSignificand_bounds hx hmax
  rw [roundToOdd, if_neg hmax.not_gt, rto]
  exact classify_packResult_of_lt s hfloor hle hpos (oddSignificand_lt_of_lt_minNorm hx h)

/-- Below MINSUB the truncated significand is 0 and the sticky makes it 1 (42_round_to_odd.md R85). -/
theorem roundToOdd_of_lt_minSub (s : Bool) {x : ℚ} (hx : 0 < x) (h : x < (2 : ℚ) ^ (-16494 : ℤ)) :
    roundToOdd s x = withSign s minSub := by
  have hb : x < (2 : ℚ) ^ ((-16382 : ℤ) + 1) := h.trans (zpow_two_lt_iff.mpr (by norm_num))
  rw [roundToOdd_eq (e := -16382) (t := 0) s hx le_rfl (by norm_num) hb (.inl rfl) (by simpa using hx.le)
    (by simpa using h), if_neg (by simpa using hx.ne)]
  cases s <;> decide

/-- The significand of a rounded magnitude is at least 1, so no positive magnitude rounds to a zero
(42_round_to_odd.md R85). -/
theorem isZero_roundToOdd (s : Bool) {x : ℚ} (hx : 0 < x) : isZero (roundToOdd s x) = false := by
  obtain ⟨e, t, h1, h2, h0, ht, -, hpack, -⟩ := roundToOdd_spec hx
  obtain ⟨-, hexp, hfrac⟩ := packResult_fields s h1 h2 ht
  rw [hpack, Bool.eq_false_iff, ne_eq, isZero_iff, hexp, hfrac]
  split_ifs <;> omega

theorem isZero_signWord (s : Bool) : isZero (signWord s) = true := by
  cases s <;> decide

/-- Settles O39: each clause is that of the rounded magnitude, and FromReal of 0 is a zero of the given sign. -/
theorem underflowIsGradual : Obligations.UnderflowIsGradual := by
  intro x zs
  refine ⟨fun hx h => ?_, fun hx h => ?_, fun h => ?_, fun hx => ?_⟩
  · rw [fromReal_of_ne_zero hx]
    exact classify_roundToOdd_of_lt_minNorm _ (abs_pos.mpr hx) h
  · rw [fromReal_of_ne_zero hx]
    exact roundToOdd_of_lt_minSub _ (abs_pos.mpr hx) h
  · by_contra hx
    rw [fromReal_of_ne_zero hx, isZero_roundToOdd _ (abs_pos.mpr hx)] at h
    exact Bool.false_ne_true h
  · rw [hx, fromReal_zero]
    exact isZero_signWord zs

/-! ### Jamming -/

/-- `Finish` with an odd working value of which it discards a bit: the discarded bits are not all 0, whatever the sticky
(42_round_to_odd.md R88, R90). -/
theorem finish_of_odd (s : Bool) {m : ℕ} {k : ℤ} (st : Bool) {n : ℕ} (hodd : m % 2 = 1)
    (hn : finishShift m k = n + 1) :
    finish s m k st =
      if 16384 ≤ (bitlen m : ℤ) - 1 + k then withSign s maxF
      else packResult s (finishBinade m k) (m / 2 ^ (n + 1) ||| 1) := by
  have hsh : 0 ≤ finishShift m k := by omega
  have hnat : (finishShift m k).toNat = n + 1 := by omega
  have hlost : (m % 2 ^ (n + 1) != 0) = true := by
    have : m % 2 ^ (n + 1) % 2 = m % 2 := Nat.mod_mod_of_dvd m (dvd_pow_self 2 n.succ_ne_zero)
    rw [bne_iff_ne]
    omega
  simp [finish, hsh, hnat, hlost, Nat.shiftRight_eq_div_pow]

/-- A value strictly between `j` and `j + 1` units of `2^k` has `j / 2^n` as its truncated significand at the quantum
`2^(n+k)`, and is no multiple of that quantum (42_round_to_odd.md R89). -/
theorem truncated_between {j n : ℕ} {k : ℤ} {x : ℚ} (h1 : (j : ℚ) * (2 : ℚ) ^ k < x)
    (h2 : x < ((j : ℚ) + 1) * (2 : ℚ) ^ k) :
    ((j / 2 ^ n : ℕ) : ℚ) * (2 : ℚ) ^ (n + k : ℤ) < x ∧ x < (((j / 2 ^ n : ℕ) : ℚ) + 1) * (2 : ℚ) ^ (n + k : ℤ) := by
  have hz := zpow_two_pos k
  rw [← natPow_mul_zpow, ← mul_assoc, ← mul_assoc]
  have hlo : ((j / 2 ^ n : ℕ) : ℚ) * ((2 ^ n : ℕ) : ℚ) ≤ j := by exact_mod_cast Nat.div_mul_le_self j (2 ^ n)
  have hup : (j : ℚ) + 1 ≤ (((j / 2 ^ n : ℕ) : ℚ) + 1) * ((2 ^ n : ℕ) : ℚ) := by
    exact_mod_cast mul_comm (2 ^ n) _ ▸ Nat.lt_mul_div_succ j (by positivity)
  exact ⟨(mul_le_mul_of_nonneg_right hlo hz.le).trans_lt h1, h2.trans_le (mul_le_mul_of_nonneg_right hup hz.le)⟩

/-- A value strictly between `j` and `j + 1` units of `2^(k+1)` lies in the binade of the odd `(2 * j + 1) * 2^k`. -/
theorem binade_between {j b : ℕ} {k : ℤ} {x : ℚ} (hlen : 2 ^ b ≤ 2 * j + 1) (hlen' : 2 * j + 1 < 2 ^ (b + 1))
    (h1 : (j : ℚ) * (2 : ℚ) ^ (k + 1) < x) (h2 : x < ((j : ℚ) + 1) * (2 : ℚ) ^ (k + 1)) :
    x < (2 : ℚ) ^ (b + k + 1) ∧ (1 ≤ b → (2 : ℚ) ^ (b + k) ≤ x) := by
  have hz := (zpow_two_pos (k + 1)).le
  constructor
  · have hj : (j : ℚ) + 1 ≤ ((2 ^ b : ℕ) : ℚ) := by exact_mod_cast (by omega : j + 1 ≤ 2 ^ b)
    rw [add_assoc, ← natPow_mul_zpow]
    exact h2.trans_le (mul_le_mul_of_nonneg_right hj hz)
  · intro hb
    obtain ⟨c, rfl⟩ := Nat.exists_eq_add_of_le' hb
    have hexp : ((c + 1 : ℕ) : ℤ) + k = c + (k + 1) := by push_cast; ring
    rw [hexp]
    exact (le_mul_zpow (by omega : 2 ^ c ≤ j)).trans h1.le

/-- `Finish` of the odd `2 * j + 1` at scale `k` is round-to-odd of every value strictly between `j` and `j + 1` units of
`2^(k+1)`, when at least one bit is discarded (42_round_to_odd.md R90). -/
theorem finish_odd_eq_roundToOdd (s : Bool) {j : ℕ} {k : ℤ} (st : Bool) {x : ℚ}
    (h1 : (j : ℚ) * (2 : ℚ) ^ (k + 1) < x) (h2 : x < ((j : ℚ) + 1) * (2 : ℚ) ^ (k + 1))
    (hsh : 1 ≤ finishShift (2 * j + 1) k) : finish s (2 * j + 1) k st = roundToOdd s x := by
  obtain ⟨b, hb, hlen, hlen'⟩ := bitlen_spec (m := 2 * j + 1) (by omega)
  obtain ⟨n, hn⟩ : ∃ n : ℕ, finishShift (2 * j + 1) k = n + 1 := ⟨(finishShift (2 * j + 1) k - 1).toNat, by omega⟩
  have he : finishBinade (2 * j + 1) k = max ((b : ℤ) + k) (-16382) := by rw [finishBinade, hb]; push_cast; ring_nf
  have hq : finishBinade (2 * j + 1) k - 112 = n + (k + 1) := by rw [finishShift] at hn; omega
  have hx : 0 < x := lt_of_le_of_lt (mul_nonneg j.cast_nonneg (zpow_two_pos _).le) h1
  obtain ⟨hup, hlo⟩ := binade_between hlen hlen' h1 h2
  rw [finish_of_odd s st (by omega) hn, hb]
  split_ifs with hover
  · exact (roundToOdd_overflow s ((zpow_two_le_iff.mpr (by omega)).trans (hlo (by omega)))).symm
  · obtain ⟨ht, ht'⟩ := truncated_between (n := n) h1 h2
    have hdiv : (2 * j + 1) / 2 ^ (n + 1) = j / 2 ^ n := by
      rw [pow_succ', ← Nat.div_div_eq_div_mul]
      congr 1
      omega
    have hge : finishBinade (2 * j + 1) k = -16382 ∨ (2 : ℚ) ^ finishBinade (2 * j + 1) k ≤ x := by
      rcases le_total ((b : ℤ) + k) (-16382) with h | h
      · exact .inl (by omega)
      · rw [he, max_eq_left h]
        exact .inr (hlo (by omega))
    rw [← hq] at ht ht'
    rw [hdiv, roundToOdd_eq s hx (by omega) (by omega) (hup.trans_le (zpow_two_le_iff.mpr (by omega))) hge ht.le ht',
      if_neg ht.ne]

/-- A value strictly between `y` and `y + 1` units of `2^k` also lies strictly between two units of `2^(k+1)`: bit 0 of `y` is
not needed to tell (42_round_to_odd.md R90). -/
theorem between_half {y : ℕ} {k : ℤ} {x : ℚ} (h1 : (y : ℚ) * (2 : ℚ) ^ k < x) (h2 : x < ((y : ℚ) + 1) * (2 : ℚ) ^ k) :
    ((y / 2 : ℕ) : ℚ) * (2 : ℚ) ^ (k + 1) < x ∧ x < (((y / 2 : ℕ) : ℚ) + 1) * (2 : ℚ) ^ (k + 1) := by
  simpa [add_comm] using truncated_between (n := 1) h1 h2

theorem or_one_eq_two_mul_half (y : ℕ) : y ||| 1 = 2 * (y / 2) + 1 := by
  rw [or_one_eq]
  split_ifs <;> omega

/-- Settles O41: `y ||| 1` is `2 * j + 1` for the half `j` of `y`, and `x` lies strictly between `j` and `j + 1` units of
`2^(k+1)`. -/
theorem jammedStickyRoundsToOdd : Obligations.JammedStickyRoundsToOdd := by
  intro s y k x h1 h2 hsh
  obtain ⟨hlo, hup⟩ := between_half h1 h2
  rw [or_one_eq_two_mul_half] at hsh ⊢
  exact finish_odd_eq_roundToOdd s false hlo hup hsh

end Sys2Proof.Machine
end

section
/-! PROOFS. The statements of 43_add_sub.md: the decision table (O42), the sign of an exact zero (O43), and subtraction as
addition of the negated operand (O44). -/
namespace Sys2Proof.Machine

/-! ### The decision table -/

/-- SelectNaN of two operands: the first NaN, quieted (40_codec_classifier.md R63). -/
theorem selectNaN_pair (a b : Word) :
    selectNaN [a, b] =
      if isNaN a = true then some (quiet a) else if isNaN b = true then some (quiet b) else none := by
  cases ha : isNaN a <;> cases hb : isNaN b <;> simp [selectNaN, ha, hb]

/-- Row 1 of 43_add_sub.md R92, the first operand a NaN. -/
theorem addSub_of_isNaN_left {a : Word} (b : Word) (sb : Bool) (ha : isNaN a = true) : addSub a b sb = quiet a := by
  rw [addSub, selectNaN_pair, if_pos ha]

/-- Row 1 of 43_add_sub.md R92, only the second operand a NaN: it keeps its own sign, whatever `sb`. -/
theorem addSub_of_isNaN_right {a b : Word} (sb : Bool) (ha : isNaN a = false) (hb : isNaN b = true) :
    addSub a b sb = quiet b := by
  rw [addSub, selectNaN_pair, if_neg (by simp [ha]), if_pos hb]

/-- Rows 2 to 6 of 43_add_sub.md R92, where no operand is a NaN. -/
theorem addSub_of_not_isNaN {a b : Word} (sb : Bool) (ha : isNaN a = false) (hb : isNaN b = false) :
    addSub a b sb =
      if isInf a = true then (if isInf b = true then (if signBit a = sb then a else dNaN) else a)
      else if isInf b = true then withSign sb pInf
      else fromReal (value a + signed sb (magnitude b)) (signBit a && sb) := by
  rw [addSub, selectNaN_pair, if_neg (by simp [ha]), if_neg (by simp [hb])]
  cases isInf a with
  | false => simp
  | true =>
    cases isInf b with
    | false => simp
    | true => by_cases hs : signBit a = sb <;> simp [hs]

/-- Rows 2 and 3 of 43_add_sub.md R92: two infinities. -/
theorem addSub_of_isInf {a b : Word} (sb : Bool) (ha : isInf a = true) (hb : isInf b = true) :
    addSub a b sb = if signBit a = sb then a else dNaN := by
  rw [addSub_of_not_isNaN sb (not_others_of_isInf ha).1 (not_others_of_isInf hb).1, if_pos ha, if_pos hb]

/-- Row 4 of 43_add_sub.md R92. -/
theorem addSub_of_isInf_isFinite {a b : Word} (sb : Bool) (ha : isInf a = true) (hb : isFinite b = true) :
    addSub a b sb = a := by
  obtain ⟨hbinf, hbnan⟩ := not_special_of_isFinite hb
  rw [addSub_of_not_isNaN sb (not_others_of_isInf ha).1 hbnan, if_pos ha, if_neg (by simp [hbinf])]

/-- Row 5 of 43_add_sub.md R92. -/
theorem addSub_of_isFinite_isInf {a b : Word} (sb : Bool) (ha : isFinite a = true) (hb : isInf b = true) :
    addSub a b sb = withSign sb pInf := by
  obtain ⟨hainf, hanan⟩ := not_special_of_isFinite ha
  rw [addSub_of_not_isNaN sb hanan (not_others_of_isInf hb).1, if_neg (by simp [hainf]), if_pos hb]

/-- Row 6 of 43_add_sub.md R92. -/
theorem addSub_of_isFinite {a b : Word} (sb : Bool) (ha : isFinite a = true) (hb : isFinite b = true) :
    addSub a b sb = fromReal (value a + signed sb (magnitude b)) (signBit a && sb) := by
  obtain ⟨hainf, hanan⟩ := not_special_of_isFinite ha
  obtain ⟨hbinf, hbnan⟩ := not_special_of_isFinite hb
  rw [addSub_of_not_isNaN sb hanan hbnan, if_neg (by simp [hainf]), if_neg (by simp [hbinf])]

theorem resultsIn_addQpo_iff {a b w : Word} : ResultsIn (.addQpo a b) w ↔ addSub a b (signBit b) = w :=
  resultsIn_iff rfl

theorem resultsIn_subQpo_iff {a b w : Word} : ResultsIn (.subQpo a b) w ↔ addSub a b (!signBit b) = w :=
  resultsIn_iff rfl

/-- Settles O42: both instructions result in `addSub` at the effective sign, so each clause is a row of its table. -/
theorem addSubDecisionTable : Obligations.AddSubDecisionTable := by
  intro a b i sb hi
  have hres : ∀ {w : Word}, ResultsIn i w ↔ addSub a b sb = w := by
    rcases hi with ⟨rfl, rfl⟩ | ⟨rfl, rfl⟩
    · exact resultsIn_addQpo_iff
    · exact resultsIn_subQpo_iff
  simp only [hres, abs_value]
  exact ⟨addSub_of_isNaN_left b sb, addSub_of_isNaN_right sb,
    fun ha hb hs => (addSub_of_isInf sb ha hb).trans (if_pos hs),
    fun ha hb hs => (addSub_of_isInf sb ha hb).trans (if_neg hs),
    addSub_of_isInf_isFinite sb, addSub_of_isFinite_isInf sb, addSub_of_isFinite sb⟩

/-! ### Subtraction as addition of the negated operand -/

theorem isNaN_xor_nZero (v : Word) : isNaN (v ^^^ nZero) = isNaN v := by
  obtain ⟨-, hexp, hfrac⟩ := fields_xor_nZero v
  rw [Bool.eq_iff_iff, isNaN_iff, isNaN_iff, hexp, hfrac]

theorem magnitude_xor_nZero (v : Word) : magnitude (v ^^^ nZero) = magnitude v := by
  obtain ⟨-, hexp, hfrac⟩ := fields_xor_nZero v
  rw [magnitude_eq, magnitude_eq, hexp, hfrac]

/-- The table reads the sign of a non-NaN `b` only through `sb`. -/
theorem addSub_xor_nZero (a : Word) {b : Word} (sb : Bool) (hb : isNaN b = false) :
    addSub a (b ^^^ nZero) sb = addSub a b sb := by
  cases ha : isNaN a with
  | true => rw [addSub_of_isNaN_left _ _ ha, addSub_of_isNaN_left _ _ ha]
  | false =>
    rw [addSub_of_not_isNaN sb ha ((isNaN_xor_nZero b).trans hb), addSub_of_not_isNaN sb ha hb, isInf_xor_nZero,
      magnitude_xor_nZero]

/-- For a non-NaN `b`, SUB_QPO is ADD_QPO of `b` with its sign bit inverted (43_add_sub.md R96). -/
theorem resultsIn_subQpo_iff_addQpo (a : Word) {b : Word} (w : Word) (hb : isNaN b = false) :
    ResultsIn (.subQpo a b) w ↔ ResultsIn (.addQpo a (b ^^^ nZero)) w := by
  rw [resultsIn_subQpo_iff, resultsIn_addQpo_iff, (fields_xor_nZero b).1, addSub_xor_nZero a _ hb]

/-! ### The sign of an exact zero -/

/-- Two finite patterns of negative sign whose values cancel are both -0: neither value is positive. -/
theorem eq_nZero_of_value_add_eq_zero {a b : Word} (h : value a + value b = 0) (ha : signBit a = true)
    (hb : signBit b = true) : a = nZero ∧ b = nZero := by
  have ha0 := magnitude_nonneg a
  have hb0 := magnitude_nonneg b
  rw [value_eq, value_eq, if_pos ha, if_pos hb] at h
  have hza : isZero a = true := (magnitude_eq_zero_iff a).mp (by linarith)
  have hzb : isZero b = true := (magnitude_eq_zero_iff b).mp (by linarith)
  have hsign : signWord true = nZero := by decide
  rw [eq_signWord_of_isZero hza, eq_signWord_of_isZero hzb, ha, hb]
  exact ⟨hsign, hsign⟩

/-- An exact zero sum is -0 for `(-0) + (-0)` and +0 otherwise (43_add_sub.md R93). -/
theorem resultsIn_addQpo_of_zero_sum {a b : Word} (ha : isFinite a = true) (hb : isFinite b = true)
    (h : value a + value b = 0) : ResultsIn (.addQpo a b) (if a = nZero ∧ b = nZero then nZero else pZero) := by
  rw [resultsIn_addQpo_iff, addSub_of_isFinite _ ha hb, ← value, h, fromReal_zero]
  split_ifs with hneg
  · obtain ⟨rfl, rfl⟩ := hneg
    decide
  · have hs : (signBit a && signBit b) = false := by
      rw [Bool.eq_false_iff, ne_eq, Bool.and_eq_true]
      exact fun hs => hneg (eq_nZero_of_value_add_eq_zero h hs.1 hs.2)
    rw [hs]
    decide

theorem signed_not (s : Bool) (x : ℚ) : signed (!s) x = -signed s x := by
  cases s <;> simp [signed]

theorem xor_nZero_eq_nZero_iff (v : Word) : v ^^^ nZero = nZero ↔ v = pZero := by
  rw [← BitVec.xor_left_inj nZero (x := v), pZero, BitVec.ofNat_eq_ofNat, BitVec.zero_xor]

/-- An exact zero difference is -0 for `(-0) - (+0)` and +0 otherwise (43_add_sub.md R93). -/
theorem resultsIn_subQpo_of_zero_difference {a b : Word} (ha : isFinite a = true) (hb : isFinite b = true)
    (h : value a - value b = 0) : ResultsIn (.subQpo a b) (if a = nZero ∧ b = pZero then nZero else pZero) := by
  have hsum : value a + value (b ^^^ nZero) = 0 := by
    rw [value_xor_nZero, signed_not, ← value, ← sub_eq_add_neg, h]
  simp only [resultsIn_subQpo_iff_addQpo a _ (not_special_of_isFinite hb).2, ← xor_nZero_eq_nZero_iff b]
  exact resultsIn_addQpo_of_zero_sum ha ((isFinite_xor_nZero b).trans hb) hsum

/-- Settles O43: a zero sum and, by negating `b`, a zero difference. -/
theorem exactZeroSumSign : Obligations.ExactZeroSumSign := fun _ _ ha hb =>
  ⟨resultsIn_addQpo_of_zero_sum ha hb, resultsIn_subQpo_of_zero_difference ha hb⟩

/-! ### The corner cases of subtraction -/

/-- A nonzero pattern's value rounds to that pattern, whatever sign a zero would have (42_round_to_odd.md R84). -/
theorem fromReal_value_of_not_isZero {v : Word} (h : isFinite v = true) (h0 : isZero v = false) (zs : Bool) :
    fromReal (value v) zs = v := by
  have hv : value v ≠ 0 := by rw [ne_eq, value_eq_zero_iff, h0]; decide
  rw [fromReal_of_ne_zero hv, ← fromReal_of_ne_zero hv (signBit v), fromReal_value h]

/-- Where the exact difference is the value of a nonzero pattern, SUB_QPO gives that pattern (43_add_sub.md R92). -/
theorem resultsIn_subQpo_of_value_sub_eq {a b w : Word} (ha : isFinite a = true) (hb : isFinite b = true)
    (hw : isFinite w = true) (hw0 : isZero w = false) (h : value a - value b = value w) :
    ResultsIn (.subQpo a b) w := by
  rw [resultsIn_subQpo_iff, addSub_of_isFinite _ ha hb, signed_not, ← value, ← sub_eq_add_neg, h]
  exact fromReal_value_of_not_isZero hw hw0 _

/-- `x - x` is +0: no pattern is both -0 and +0 (43_add_sub.md R93, R96). -/
theorem resultsIn_subQpo_self {x : Word} (hx : isFinite x = true) : ResultsIn (.subQpo x x) pZero := by
  have hne : ¬ (x = nZero ∧ x = pZero) := by
    rintro ⟨rfl, h⟩
    exact absurd h (by decide)
  have hres := resultsIn_subQpo_of_zero_difference hx hx (sub_self _)
  rwa [if_neg hne] at hres

/-- The example of 43_add_sub.md R96: `(1 + 2^-112) - 1` is exactly `2^-112`. -/
theorem value_sub_one_of_next_above_one :
    value 0x3FFF0000000000000000000000000001 - value one = value 0x3F8F0000000000000000000000000000 := by
  rw [value_of_exp_ne_zero (e := 0x3FFF) (f := 1) (by decide) (by decide) (by decide) (by decide), value_one,
    value_of_frac_zero (e := 0x3F8F) (by decide) (by decide) (by decide) (by decide)]
  norm_num

/-- Settles O44: the rule itself is the instruction's outcome, and each corner case is a row of the table. -/
theorem subtractIsAddOfNegated : Obligations.SubtractIsAddOfNegated := by
  refine ⟨fun a b => resultsIn_subQpo_iff.mpr rfl, fun a b w => resultsIn_subQpo_iff_addQpo a w,
    fun a b ha hb => resultsIn_subQpo_iff.mpr (addSub_of_isNaN_right _ ha hb), fun x => resultsIn_subQpo_self,
    ?_, ?_, ?_⟩
  · have h0 : ∀ {v : Word}, isZero v = true → value v = 0 := (value_eq_zero_iff _).mpr
    have hres := resultsIn_subQpo_of_zero_difference (a := nZero) (b := pZero) (by decide) (by decide)
      (by rw [h0 (by decide), h0 (by decide), sub_zero])
    rwa [if_pos ⟨rfl, rfl⟩] at hres
  · rw [resultsIn_subQpo_iff, addSub_of_isInf _ (by decide) (by decide)]
    decide
  · exact resultsIn_subQpo_of_value_sub_eq (by decide) (by decide) (by decide) (by decide)
      value_sub_one_of_next_above_one

end Sys2Proof.Machine
end

section
/-! PROOFS. The statement of 44_mul.md: the decision table of MUL_QPO (O49). -/
namespace Sys2Proof.Machine

/-- Row 1 of 44_mul.md R100, the first operand a NaN. -/
theorem multiply_of_isNaN_left {a : Word} (b : Word) (ha : isNaN a = true) : multiply a b = quiet a := by
  rw [multiply, selectNaN_pair, if_pos ha]

/-- Row 1 of 44_mul.md R100, only the second operand a NaN. -/
theorem multiply_of_isNaN_right {a b : Word} (ha : isNaN a = false) (hb : isNaN b = true) :
    multiply a b = quiet b := by
  rw [multiply, selectNaN_pair, if_neg (by simp [ha]), if_pos hb]

/-- Rows 2 to 4 of 44_mul.md R100, where no operand is a NaN. -/
theorem multiply_of_not_isNaN {a b : Word} (ha : isNaN a = false) (hb : isNaN b = false) :
    multiply a b =
      if isInf a = true ∧ isZero b = true ∨ isZero a = true ∧ isInf b = true then dNaN
      else if isInf a = true ∨ isInf b = true then withSign (signXor a b) pInf
      else fromReal (value a * value b) (signXor a b) := by
  rw [multiply, selectNaN_pair, if_neg (by simp [ha]), if_neg (by simp [hb])]
  simp only [Bool.or_eq_true, Bool.and_eq_true]

theorem not_isNaN_of_isZero {v : Word} (h : isZero v = true) : isNaN v = false :=
  (not_special_of_isFinite (isFinite_of_isZero h)).2

/-- Row 2 of 44_mul.md R100: an infinity times a zero, in either order. -/
theorem multiply_of_isInf_isZero {a b : Word}
    (h : isInf a = true ∧ isZero b = true ∨ isZero a = true ∧ isInf b = true) : multiply a b = dNaN := by
  obtain ⟨ha, hb⟩ : isNaN a = false ∧ isNaN b = false := by
    rcases h with ⟨hinf, hzero⟩ | ⟨hzero, hinf⟩
    · exact ⟨(not_others_of_isInf hinf).1, not_isNaN_of_isZero hzero⟩
    · exact ⟨not_isNaN_of_isZero hzero, (not_others_of_isInf hinf).1⟩
  rw [multiply_of_not_isNaN ha hb, if_pos h]

/-- Row 3 of 44_mul.md R100, the first operand an infinity. -/
theorem multiply_of_isInf_left {a b : Word} (ha : isInf a = true) (hb : isNaN b = false) (hb0 : isZero b = false) :
    multiply a b = withSign (signXor a b) pInf := by
  obtain ⟨hanan, -, ha0⟩ := not_others_of_isInf ha
  rw [multiply_of_not_isNaN hanan hb, if_neg (by simp [ha0, hb0]), if_pos (.inl ha)]

/-- Row 3 of 44_mul.md R100, the second operand an infinity. -/
theorem multiply_of_isInf_right {a b : Word} (hb : isInf b = true) (ha : isNaN a = false) (ha0 : isZero a = false) :
    multiply a b = withSign (signXor a b) pInf := by
  obtain ⟨hbnan, -, hb0⟩ := not_others_of_isInf hb
  rw [multiply_of_not_isNaN ha hbnan, if_neg (by simp [ha0, hb0]), if_pos (.inr hb)]

/-- Row 4 of 44_mul.md R100. -/
theorem multiply_of_isFinite {a b : Word} (ha : isFinite a = true) (hb : isFinite b = true) :
    multiply a b = fromReal (value a * value b) (signXor a b) := by
  obtain ⟨hainf, hanan⟩ := not_special_of_isFinite ha
  obtain ⟨hbinf, hbnan⟩ := not_special_of_isFinite hb
  rw [multiply_of_not_isNaN hanan hbnan, if_neg (by simp [hainf, hbinf]), if_neg (by simp [hainf, hbinf])]

theorem resultsIn_mulQpo_iff {a b w : Word} : ResultsIn (.mulQpo a b) w ↔ multiply a b = w :=
  resultsIn_iff rfl

/-- Settles O49: the instruction results in `multiply`, so each clause is a row of its table. -/
theorem multiplyDecisionTable : Obligations.MultiplyDecisionTable := by
  intro a b sp
  simp only [resultsIn_mulQpo_iff]
  exact ⟨multiply_of_isNaN_left b, multiply_of_isNaN_right, multiply_of_isInf_isZero, multiply_of_isInf_left,
    multiply_of_isInf_right, multiply_of_isFinite⟩

end Sys2Proof.Machine
end

section
/-! PROOFS. The statement of 45_div.md: the decision table of DIV_QPO (O51). -/
namespace Sys2Proof.Machine

/-- Row 1 of 45_div.md R105, the dividend a NaN. -/
theorem divide_of_isNaN_left {a : Word} (b : Word) (ha : isNaN a = true) : divide a b = quiet a := by
  rw [divide, selectNaN_pair, if_pos ha]

/-- Row 1 of 45_div.md R105, only the divisor a NaN. -/
theorem divide_of_isNaN_right {a b : Word} (ha : isNaN a = false) (hb : isNaN b = true) : divide a b = quiet b := by
  rw [divide, selectNaN_pair, if_neg (by simp [ha]), if_pos hb]

theorem withSign_pZero (s : Bool) : withSign s pZero = signWord s :=
  BitVec.or_zero

/-- Rows 2 to 8 of 45_div.md R105, where no operand is a NaN; the zero of rows 5 and 7 as a sign over PZERO. -/
theorem divide_of_not_isNaN {a b : Word} (ha : isNaN a = false) (hb : isNaN b = false) :
    divide a b =
      if isZero a = true ∧ isZero b = true then dNaN
      else if isInf a = true ∧ isInf b = true then dNaN
      else if isInf a = true then withSign (signXor a b) pInf
      else if isInf b = true then withSign (signXor a b) pZero
      else if isZero b = true then withSign (signXor a b) pInf
      else if isZero a = true then withSign (signXor a b) pZero
      else fromReal (value a / value b) (signXor a b) := by
  rw [divide, selectNaN_pair, if_neg (by simp [ha]), if_neg (by simp [hb])]
  simp only [Bool.and_eq_true, withSign_pZero]

/-- Row 2 of 45_div.md R105. -/
theorem divide_of_isZero_isZero {a b : Word} (ha : isZero a = true) (hb : isZero b = true) : divide a b = dNaN := by
  rw [divide_of_not_isNaN (not_isNaN_of_isZero ha) (not_isNaN_of_isZero hb), if_pos ⟨ha, hb⟩]

/-- Row 3 of 45_div.md R105. -/
theorem divide_of_isInf_isInf {a b : Word} (ha : isInf a = true) (hb : isInf b = true) : divide a b = dNaN := by
  obtain ⟨hanan, -, ha0⟩ := not_others_of_isInf ha
  rw [divide_of_not_isNaN hanan (not_others_of_isInf hb).1, if_neg (by simp [ha0]), if_pos ⟨ha, hb⟩]

/-- Row 4 of 45_div.md R105. -/
theorem divide_of_isInf_isFinite {a b : Word} (ha : isInf a = true) (hb : isFinite b = true) :
    divide a b = withSign (signXor a b) pInf := by
  obtain ⟨hanan, -, ha0⟩ := not_others_of_isInf ha
  obtain ⟨hbinf, hbnan⟩ := not_special_of_isFinite hb
  rw [divide_of_not_isNaN hanan hbnan, if_neg (by simp [ha0]), if_neg (by simp [hbinf]), if_pos ha]

/-- Row 5 of 45_div.md R105. -/
theorem divide_of_isFinite_isInf {a b : Word} (ha : isFinite a = true) (hb : isInf b = true) :
    divide a b = withSign (signXor a b) pZero := by
  obtain ⟨hainf, hanan⟩ := not_special_of_isFinite ha
  obtain ⟨hbnan, -, hb0⟩ := not_others_of_isInf hb
  rw [divide_of_not_isNaN hanan hbnan, if_neg (by simp [hb0]), if_neg (by simp [hainf]), if_neg (by simp [hainf]),
    if_pos hb]

/-- Rows 6 to 8 of 45_div.md R105: finite operands that are not both zero. -/
theorem divide_of_isFinite {a b : Word} (ha : isFinite a = true) (hb : isFinite b = true)
    (h0 : ¬ (isZero a = true ∧ isZero b = true)) :
    divide a b =
      if isZero b = true then withSign (signXor a b) pInf
      else if isZero a = true then withSign (signXor a b) pZero
      else fromReal (value a / value b) (signXor a b) := by
  obtain ⟨hainf, hanan⟩ := not_special_of_isFinite ha
  obtain ⟨hbinf, hbnan⟩ := not_special_of_isFinite hb
  rw [divide_of_not_isNaN hanan hbnan, if_neg h0, if_neg (by simp [hainf]), if_neg (by simp [hainf]),
    if_neg (by simp [hbinf])]

/-- Row 6 of 45_div.md R105. -/
theorem divide_of_isZero_right {a b : Word} (ha : isFinite a = true) (ha0 : isZero a = false) (hb : isZero b = true) :
    divide a b = withSign (signXor a b) pInf := by
  rw [divide_of_isFinite ha (isFinite_of_isZero hb) (by simp [ha0]), if_pos hb]

/-- Row 7 of 45_div.md R105. -/
theorem divide_of_isZero_left {a b : Word} (ha : isZero a = true) (hb : isFinite b = true) (hb0 : isZero b = false) :
    divide a b = withSign (signXor a b) pZero := by
  rw [divide_of_isFinite (isFinite_of_isZero ha) hb (by simp [hb0]), if_neg (by simp [hb0]), if_pos ha]

/-- Row 8 of 45_div.md R105. -/
theorem divide_of_not_isZero {a b : Word} (ha : isFinite a = true) (ha0 : isZero a = false) (hb : isFinite b = true)
    (hb0 : isZero b = false) : divide a b = fromReal (value a / value b) (signXor a b) := by
  rw [divide_of_isFinite ha hb (by simp [ha0]), if_neg (by simp [hb0]), if_neg (by simp [ha0])]

theorem resultsIn_divQpo_iff {a b w : Word} : ResultsIn (.divQpo a b) w ↔ divide a b = w :=
  resultsIn_iff rfl

/-- Settles O51: the instruction results in `divide`, so each clause is a row of its table. -/
theorem divideDecisionTable : Obligations.DivideDecisionTable := by
  intro a b sp
  simp only [resultsIn_divQpo_iff]
  exact ⟨divide_of_isNaN_left b, divide_of_isNaN_right, divide_of_isZero_isZero, divide_of_isInf_isInf,
    divide_of_isInf_isFinite, divide_of_isFinite_isInf, divide_of_isZero_right, divide_of_isZero_left,
    divide_of_not_isZero⟩

end Sys2Proof.Machine
end

section
/-! PROOFS. The statement of 46_fma.md: the decision table of FMA_QPO and the sign of its exact zero (O54). -/
namespace Sys2Proof.Machine

/-! ### The decision table -/

/-- SelectNaN takes a leading NaN, and is SelectNaN of the rest where the leading operand is none (40_codec_classifier.md
R63). -/
theorem selectNaN_cons (x : Word) (xs : List Word) :
    selectNaN (x :: xs) = if isNaN x = true then some (quiet x) else selectNaN xs := by
  cases hx : isNaN x <;> simp [selectNaN, hx]

/-- Row 1 of 46_fma.md R110, the first factor a NaN. -/
theorem fusedMultiplyAdd_of_isNaN_left {a : Word} (b c : Word) (ha : isNaN a = true) :
    fusedMultiplyAdd a b c = quiet a := by
  rw [fusedMultiplyAdd, selectNaN_cons, if_pos ha]

/-- Row 1 of 46_fma.md R110, the second factor the first NaN. -/
theorem fusedMultiplyAdd_of_isNaN_right {a b : Word} (c : Word) (ha : isNaN a = false) (hb : isNaN b = true) :
    fusedMultiplyAdd a b c = quiet b := by
  rw [fusedMultiplyAdd, selectNaN_cons, if_neg (by simp [ha]), selectNaN_pair, if_pos hb]

/-- Row 1 of 46_fma.md R110, only the addend a NaN. -/
theorem fusedMultiplyAdd_of_isNaN_addend {a b c : Word} (ha : isNaN a = false) (hb : isNaN b = false)
    (hc : isNaN c = true) : fusedMultiplyAdd a b c = quiet c := by
  rw [fusedMultiplyAdd, selectNaN_cons, if_neg (by simp [ha]), selectNaN_pair, if_neg (by simp [hb]), if_pos hc]

/-- Rows 2 to 6 of 46_fma.md R110, where no operand is a NaN; rows 3 and 4 are the two outcomes of an infinite product. -/
theorem fusedMultiplyAdd_of_not_isNaN {a b c : Word} (ha : isNaN a = false) (hb : isNaN b = false)
    (hc : isNaN c = false) :
    fusedMultiplyAdd a b c =
      if isInf a = true ∧ isZero b = true ∨ isZero a = true ∧ isInf b = true then dNaN
      else if isInf a = true ∨ isInf b = true then
        (if isInf c = true ∧ signBit c ≠ signXor a b then dNaN else withSign (signXor a b) pInf)
      else if isInf c = true then c
      else fromReal (value a * value b + value c) (signXor a b && signBit c) := by
  rw [fusedMultiplyAdd, selectNaN_cons, if_neg (by simp [ha]), selectNaN_pair, if_neg (by simp [hb]),
    if_neg (by simp [hc])]
  simp only [Bool.or_eq_true, Bool.and_eq_true, bne_iff_ne]
  by_cases hinf : isInf a = true ∨ isInf b = true
  · simp only [hinf, true_and, if_true]
  · simp only [hinf, false_and, if_false]

/-- Neither factor of an infinity times a zero is a NaN. -/
theorem not_isNaN_of_isInf_isZero {a b : Word}
    (h : isInf a = true ∧ isZero b = true ∨ isZero a = true ∧ isInf b = true) : isNaN a = false ∧ isNaN b = false := by
  rcases h with ⟨hinf, hzero⟩ | ⟨hzero, hinf⟩
  · exact ⟨(not_others_of_isInf hinf).1, not_isNaN_of_isZero hzero⟩
  · exact ⟨not_isNaN_of_isZero hzero, (not_others_of_isInf hinf).1⟩

/-- Row 2 of 46_fma.md R110: an infinity times a zero, whatever the non-NaN addend. -/
theorem fusedMultiplyAdd_of_isInf_isZero {a b c : Word} (hc : isNaN c = false)
    (h : isInf a = true ∧ isZero b = true ∨ isZero a = true ∧ isInf b = true) : fusedMultiplyAdd a b c = dNaN := by
  obtain ⟨ha, hb⟩ := not_isNaN_of_isInf_isZero h
  rw [fusedMultiplyAdd_of_not_isNaN ha hb hc, if_pos h]

/-- A product that is infinite by the table of 44_mul.md R100 has no NaN factor and is not an infinity times a zero. -/
theorem infinite_product_cases {a b : Word}
    (h : isInf a = true ∧ isNaN b = false ∧ isZero b = false ∨ isInf b = true ∧ isNaN a = false ∧ isZero a = false) :
    isNaN a = false ∧ isNaN b = false ∧ (isInf a = true ∨ isInf b = true) ∧
      ¬ (isInf a = true ∧ isZero b = true ∨ isZero a = true ∧ isInf b = true) := by
  rcases h with ⟨hinf, hnan, hzero⟩ | ⟨hinf, hnan, hzero⟩
  · obtain ⟨hanan, -, hazero⟩ := not_others_of_isInf hinf
    exact ⟨hanan, hnan, .inl hinf, by simp [hzero, hazero]⟩
  · obtain ⟨hbnan, -, hbzero⟩ := not_others_of_isInf hinf
    exact ⟨hnan, hbnan, .inr hinf, by simp [hzero, hbzero]⟩

/-- Rows 3 and 4 of 46_fma.md R110: an infinite product plus a non-NaN addend. -/
theorem fusedMultiplyAdd_of_infinite_product {a b c : Word}
    (h : isInf a = true ∧ isNaN b = false ∧ isZero b = false ∨ isInf b = true ∧ isNaN a = false ∧ isZero a = false)
    (hc : isNaN c = false) :
    fusedMultiplyAdd a b c =
      if isInf c = true ∧ signBit c ≠ signXor a b then dNaN else withSign (signXor a b) pInf := by
  obtain ⟨ha, hb, hinf, hvalid⟩ := infinite_product_cases h
  rw [fusedMultiplyAdd_of_not_isNaN ha hb hc, if_neg hvalid, if_pos hinf]

/-- Rows 5 and 6 of 46_fma.md R110: finite factors. -/
theorem fusedMultiplyAdd_of_isFinite_factors {a b c : Word} (ha : isFinite a = true) (hb : isFinite b = true)
    (hc : isNaN c = false) :
    fusedMultiplyAdd a b c =
      if isInf c = true then c else fromReal (value a * value b + value c) (signXor a b && signBit c) := by
  obtain ⟨hainf, hanan⟩ := not_special_of_isFinite ha
  obtain ⟨hbinf, hbnan⟩ := not_special_of_isFinite hb
  rw [fusedMultiplyAdd_of_not_isNaN hanan hbnan hc, if_neg (by simp [hainf, hbinf]), if_neg (by simp [hainf, hbinf])]

/-- Row 5 of 46_fma.md R110. -/
theorem fusedMultiplyAdd_of_isInf_addend {a b c : Word} (ha : isFinite a = true) (hb : isFinite b = true)
    (hc : isInf c = true) : fusedMultiplyAdd a b c = c := by
  rw [fusedMultiplyAdd_of_isFinite_factors ha hb (not_others_of_isInf hc).1, if_pos hc]

/-- Row 6 of 46_fma.md R110. -/
theorem fusedMultiplyAdd_of_isFinite {a b c : Word} (ha : isFinite a = true) (hb : isFinite b = true)
    (hc : isFinite c = true) :
    fusedMultiplyAdd a b c = fromReal (value a * value b + value c) (signXor a b && signBit c) := by
  obtain ⟨hcinf, hcnan⟩ := not_special_of_isFinite hc
  rw [fusedMultiplyAdd_of_isFinite_factors ha hb hcnan, if_neg (by simp [hcinf])]

/-! ### The sign of an exact zero -/

/-- The exact product has the sign `sp` and the product of the magnitudes (44_mul.md R100). -/
theorem value_mul_value (a b : Word) : value a * value b = signed (signXor a b) (magnitude a * magnitude b) := by
  cases ha : signBit a <;> cases hb : signBit b <;> simp [value, signXor, signed, ha, hb]

/-- A negative product and a negative addend cancel only where the addend is zero: neither is positive. -/
theorem value_addend_eq_zero_of_cancel {a b c : Word} (h : value a * value b + value c = 0)
    (hp : signXor a b = true) (hc : signBit c = true) : value c = 0 := by
  have hprod : 0 ≤ magnitude a * magnitude b := mul_nonneg (magnitude_nonneg a) (magnitude_nonneg b)
  have hadd : 0 ≤ magnitude c := magnitude_nonneg c
  rw [value_mul_value, hp] at h
  rw [value_eq, if_pos hc] at h ⊢
  rw [signed, if_pos rfl] at h
  linarith

/-- An exact zero is -0 where product and addend are both negative zeros, and +0 otherwise (46_fma.md R111). -/
theorem fusedMultiplyAdd_of_zero_sum {a b c : Word} (ha : isFinite a = true) (hb : isFinite b = true)
    (hc : isFinite c = true) (h : value a * value b + value c = 0) :
    fusedMultiplyAdd a b c = if value c = 0 ∧ signXor a b = true ∧ signBit c = true then nZero else pZero := by
  rw [fusedMultiplyAdd_of_isFinite ha hb hc, h, fromReal_zero]
  split_ifs with hneg
  · obtain ⟨-, hp, hs⟩ := hneg
    rw [hp, hs]
    decide
  · have hsign : (signXor a b && signBit c) = false := by
      rw [Bool.eq_false_iff, ne_eq, Bool.and_eq_true]
      exact fun ⟨hp, hs⟩ => hneg ⟨value_addend_eq_zero_of_cancel h hp hs, hp, hs⟩
    rw [hsign]
    decide

theorem resultsIn_fmaQpo_iff {a b c w : Word} : ResultsIn (.fmaQpo a b c) w ↔ fusedMultiplyAdd a b c = w :=
  resultsIn_iff rfl

/-- Settles O54: the instruction results in `fusedMultiplyAdd`, so each clause is a row of its table. -/
theorem fusedDecisionTable : Obligations.FusedDecisionTable := by
  intro a b c sp sc i
  simp only [i, resultsIn_fmaQpo_iff]
  refine ⟨fusedMultiplyAdd_of_isNaN_left b c, fusedMultiplyAdd_of_isNaN_right c, fusedMultiplyAdd_of_isNaN_addend,
    fusedMultiplyAdd_of_isInf_isZero, fun h => ⟨fun hc hs => ?_, fun hc hs => ?_, fun hc => ?_⟩,
    fusedMultiplyAdd_of_isInf_addend, fusedMultiplyAdd_of_isFinite, fusedMultiplyAdd_of_zero_sum⟩
  · exact (fusedMultiplyAdd_of_infinite_product h (not_others_of_isInf hc).1).trans (if_pos ⟨hc, hs⟩)
  · exact (fusedMultiplyAdd_of_infinite_product h (not_others_of_isInf hc).1).trans (if_neg fun hne => hne.2 hs)
  · obtain ⟨hcinf, hcnan⟩ := not_special_of_isFinite hc
    exact (fusedMultiplyAdd_of_infinite_product h hcnan).trans (if_neg (by simp [hcinf]))

end Sys2Proof.Machine
end

section
/-! PROOFS. The statements of 60_exceptions.md: the two fault kinds and their conditions (O10), what a fault leaves unchanged
(O16), and the operations that never fault (O19). -/
namespace Sys2Proof.Machine

/-! ### Which instructions fault -/

theorem div256by128_eq_error_iff {a b c : Word} {k : FaultKind} :
    div256by128 a b c = .error k ↔ k = .dividePrecondition ∧ (c.toNat = 0 ∨ c.toNat ≤ a.toNat) := by
  by_cases h : c.toNat = 0 ∨ c.toNat ≤ a.toNat
  · rw [div256by128_of_broken b h, Except.error.injEq, and_iff_left h, eq_comm]
  · have hlt : a.toNat < c.toNat := by omega
    obtain ⟨p, hp, -⟩ := div256by128_of_lt b hlt
    simp [hp, h]

/-- The wide divide alone faults, and only where its precondition is broken (60_exceptions.md R121). -/
theorem outcome_eq_error_iff {i : Instr} {k : FaultKind} :
    outcome i = .error k ↔ k = .dividePrecondition ∧
      ∃ a b c : Word, i = .div256by128 a b c ∧ (c.toNat = 0 ∨ c.toNat ≤ a.toNat) := by
  cases i with
  | div256by128 a b c =>
    rw [outcome, div256by128_eq_error_iff]
    constructor
    · exact fun ⟨hk, hbroken⟩ => ⟨hk, a, b, c, rfl, hbroken⟩
    · rintro ⟨hk, _, _, _, ⟨⟩, hbroken⟩
      exact ⟨hk, hbroken⟩
  | _ => simp [outcome]

/-- An instruction reports the fault that is its outcome, in every state. -/
theorem faultsWith_iff {i : Instr} {s : State} {k : FaultKind} : FaultsWith i s k ↔ outcome i = .error k := by
  refine ⟨fun ⟨t, hexec, _, hkind, _⟩ => ?_, fun h => faultsWith_of_outcome h s⟩
  rw [exec_eq_answer, Host.Outcome.next.injEq] at hexec
  subst hexec
  cases ho : outcome i with
  | ok p => simp [ho] at hkind
  | error k' => simpa [ho] using hkind

/-- Settles O19: the only instruction whose outcome can be a fault is the wide divide, which is none of the eight. -/
theorem floatingPointNeverFaults : Obligations.FloatingPointNeverFaults := by
  intro a b c sign e fraction i s hi
  cases h : outcome i with
  | ok p => exact ⟨_, exec_of_ok h s, rfl, rfl⟩
  | error k =>
    obtain ⟨-, _, _, _, rfl, -⟩ := outcome_eq_error_iff.mp h
    simp at hi

/-! ### Which requests fault -/

theorem decode_of_op_nine {q : Request} (h : q.op = 0x9) : q.decode = .ok (.div256by128 q.a q.b q.c) := by
  rw [Request.decode, h]
  rfl

theorem execute_of_decode {q : Request} {i : Instr} (h : q.decode = .ok i) : execute q = outcome i := by
  rw [execute, decode_word, h]

/-- A reserved op is refused by `Execute`; a legal one gets the outcome of an instruction of that op
(60_exceptions.md R124, 30_encoding.md R56). -/
theorem execute_cases (q : Request) :
    0xD < q.op.toNat ∧ execute q = .error .illegalOperation ∨
      q.op.toNat ≤ 0xD ∧ ∃ i : Instr, i.op = q.op ∧ execute q = outcome i := by
  rcases Nat.lt_or_ge 0xD q.op.toNat with h | h
  · exact .inl ⟨h, by rw [execute, decode_word, decode_of_lt_op h]⟩
  · obtain ⟨i, hi⟩ := decode_of_op_le h
    exact .inr ⟨h, i, op_of_decode hi, execute_of_decode hi⟩

/-- `IllegalOperation` is the fault of the two reserved ops (60_exceptions.md R121). -/
theorem execute_eq_illegalOperation_iff (q : Request) :
    execute q = .error .illegalOperation ↔ q.op = 0xE ∨ q.op = 0xF := by
  have hreserved : q.op = 0xE ∨ q.op = 0xF ↔ 0xD < q.op.toNat := by bv_omega
  rw [hreserved]
  rcases execute_cases q with ⟨hop, he⟩ | ⟨hop, i, -, he⟩
  · exact iff_of_true he hop
  · simp [he, outcome_eq_error_iff, hop]

/-- `DividePrecondition` is the fault of op 0x9 with `c = 0` or `a ≥ c` (60_exceptions.md R121). -/
theorem execute_eq_dividePrecondition_iff (q : Request) :
    execute q = .error .dividePrecondition ↔ q.op = 0x9 ∧ (q.c = 0 ∨ q.c.toNat ≤ q.a.toNat) := by
  by_cases hnine : q.op = 0x9
  · have hzero : q.c = 0 ↔ q.c.toNat = 0 := by bv_omega
    rw [execute_of_decode (decode_of_op_nine hnine), outcome, div256by128_eq_error_iff, hzero]
    simp [hnine]
  · refine iff_of_false (fun h => hnine ?_) (fun h => hnine h.1)
    rcases execute_cases q with ⟨-, he⟩ | ⟨-, i, hop, he⟩
    · simp [he] at h
    · obtain ⟨-, _, _, _, rfl, -⟩ := outcome_eq_error_iff.mp (he.symm.trans h)
      exact hop.symm

theorem State.answer_faultKind_eq_some_iff (s : State) (o : Except FaultKind Response) (k : FaultKind) :
    (s.answer o).faultKind = some k ↔ o = .error k := by
  cases o <;> simp

/-- `err` is 1 exactly where a fault kind is kept (60_exceptions.md R122). -/
theorem State.answer_err_iff (s : State) (o : Except FaultKind Response) :
    (s.answer o).err = true ↔ (s.answer o).faultKind ≠ none := by
  cases o <;> simp

/-- Settles O10: a step answers with the request's `Execute`, whose faults are those of R121; DIV_128BY128 is the wide divide
with `a = 0`, whose precondition is broken exactly at `c = 0`. -/
theorem faultConditions : Obligations.FaultConditions := by
  refine ⟨fun s q rest h => ⟨_, step_cons h, ?_, ?_, State.answer_err_iff _ _⟩, fun n d s => ?_⟩
  · rw [State.answer_faultKind_eq_some_iff, execute_eq_illegalOperation_iff]
  · rw [State.answer_faultKind_eq_some_iff, execute_eq_dividePrecondition_iff]
  · have hzero : d = 0 ↔ d.toNat = 0 ∨ d.toNat ≤ (0 : Word).toNat := by bv_omega
    simp only [faultsWith_iff, div128by128, outcome, div256by128_eq_error_iff, hzero, exists_eq_left]

/-! ### What a fault leaves unchanged -/

/-- Of the state a step reads the queue alone: states with the same requests answer alike (10_state.md R16). -/
theorem step_agrees_of_same_requests {s t : State} {q : Request} {rest : List Request} (hs : s.requests = q :: rest)
    (ht : t.requests = q :: rest) :
    ∃ u v : State, step s = .next u ∧ step t = .next v ∧
      u.response = v.response ∧ u.err = v.err ∧ u.requests = v.requests ∧ u.answered = v.answered := by
  refine ⟨_, _, step_cons hs, step_cons ht, ?_, ?_, ?_, ?_⟩
  · rw [State.response_answer, State.response_answer]
  · rw [State.answer_err, State.answer_err]
  · rw [State.answer_requests, State.answer_requests]
  · rw [State.answer_answered, State.answer_answered]

/-- Settles O16: the faulting step drops its own request alone, and the next step reads nothing that the fault wrote. That the
first step faulted is not used: the same holds after any response. -/
theorem faultHasNoFurtherEffect : Obligations.FaultHasNoFurtherEffect := by
  intro s t q q' rest h hstep _
  rw [step_cons h, Host.Outcome.next.injEq] at hstep
  have hqueue : t.requests = q' :: rest := hstep ▸ State.answer_requests _ _
  exact ⟨hqueue, step_agrees_of_same_requests hqueue rfl⟩

end Sys2Proof.Machine
end

section
/-! PROOFS. The statements of 70_reset_and_hazards.md and of the machine: what a step and an instruction do (O8, O9, O14), the
invariant of the outputs (O13, O15), runs (O11), the first request after reset (O18), and a caller's own response (O60). -/
namespace Sys2Proof.Machine

/-! ### A step and its instruction -/

/-- Settles O13: whatever held before, a step's next state answers the request it notes. -/
theorem stepKeepsOutputsAnswer : Obligations.StepKeepsOutputsAnswer := by
  intro s t _ hstep p hp
  obtain ⟨q, rest, -, rfl⟩ := step_cases hstep
  rw [State.answer_answered, Option.some.injEq] at hp
  exact hp ▸ answers_answer _ q

/-- Settles O15: nothing has been answered, so the invariant says nothing. -/
theorem resetOutputsAnswer : Obligations.ResetOutputsAnswer :=
  ⟨fun _ h => (Option.some_ne_none _ h.symm).elim, rfl, rfl⟩

/-- Settles O9: a step gives the outcome of `Execute` on the outputs of the state that has taken the request. -/
theorem stepAgreesWithExecute : Obligations.StepAgreesWithExecute := fun _ q _ h =>
  ⟨_, step_cons h, State.answer_requests _ _, State.answer_answered _ _, answers_answer _ q⟩

/-- Settles O8: the step and the instruction give the same outcome on the same outputs. -/
theorem stepRunsDecodedInstruction : Obligations.StepRunsDecodedInstruction := by
  intro s q rest i h hi _
  rw [step_cons h, exec_eq_answer, execute, hi]

/-- Settles O14: an instruction changes the outputs alone, and a fault alone takes free values. -/
theorem instructionFrame : Obligations.InstructionFrame := by
  refine fun i s => ⟨_, exec_eq_answer i s, State.answer_requests _ _, State.answer_answered _ _, ?_⟩
  cases outcome i with
  | ok p => exact fun _ => rfl
  | error k => exact fun herr => absurd herr (by simp)

/-! ### Runs -/

/-- A run of at most as many steps as there are requests is safe (20_memory.md R41, 60_exceptions.md R127). -/
theorem safeRun_of_le (n : Nat) {s : State} (h : n ≤ s.requests.length) : SafeRun s n := by
  induction n generalizing s with
  | zero => exact ⟨s, rfl⟩
  | succ n ih =>
    obtain ⟨q, rest, hs⟩ := List.exists_cons_of_length_pos (Nat.zero_lt_of_lt h)
    rw [hs, List.length_cons] at h
    obtain ⟨t, ht⟩ := ih (s := { s with requests := rest, answered := some q }.answer (execute q)) (by simpa using h)
    exact ⟨t, (run_cons hs n).trans ht⟩

/-- A run of more steps than there are requests stops for want of one (log entry 3). -/
theorem run_stops_of_lt (n : Nat) {s : State} (h : s.requests.length < n) :
    Host.Core.run Sys2Proof.core n s = Host.Outcome.fault (σ := State) (ρ := Refusal) Fault.noRequest := by
  induction n generalizing s with
  | zero => exact absurd h (Nat.not_lt_zero _)
  | succ n ih =>
    cases hs : s.requests with
    | nil => exact run_nil hs n
    | cons q rest =>
      rw [hs, List.length_cons] at h
      exact (run_cons hs n).trans (ih (by simpa using h))

/-- Settles O11: by induction on the number of steps, each of which takes one request. -/
theorem runsOnlyStopWithoutRequests : Obligations.RunsOnlyStopWithoutRequests :=
  ⟨fun _ n => safeRun_of_le n, fun _ n => run_stops_of_lt n⟩

/-! ### Reset -/

/-- Settles O18: a step reads the queue alone, and both reset states hold the one request presented after the reset. -/
theorem firstRequestAfterReset : Obligations.FirstRequestAfterReset := by
  intro s later q rest h
  have hreset : (State.reset.present q).requests = [q] := rfl
  have hassert : (s.assertReset.present q).requests = [q] := rfl
  refine ⟨_, _, _, step_cons hreset, step_cons hassert, step_cons h, State.answer_requests _ _,
    State.answer_requests _ _, ?_⟩
  simp only [State.response_answer, State.answer_err, and_self]

/-! ### A caller's own response -/

/-- A line that assembles is presented, and its response awaited, before the rest of the program
(70_reset_and_hazards.md R141). -/
theorem runLines_cons {l : SourceLine} {h : Held} {q : Request} (rest : List SourceLine) {s t : State}
    (hq : l.request h = some q) (ht : s.awaitResponse q = .next t) :
    runLines (l :: rest) h s = runLines rest (l.receive h t) t := by
  rw [runLines, hq]
  simp only [ht]

/-- Settles O60: the waiting requests and `q` take one step each, the last of them answering `q`. -/
theorem issuedLineGetsItsOwnResponse : Obligations.IssuedLineGetsItsOwnResponse := by
  refine ⟨fun s q => ?_, fun l rest h s q hq => ?_⟩
  · obtain ⟨t, ht, hrest⟩ := s.awaitResponse_cases q
    exact ⟨t, ht, (answerOldest_eq_run _ _).symm.trans ht, hrest⟩
  · obtain ⟨t, ht, hnone, hanswered, hanswers⟩ := s.awaitResponse_cases q
    exact ⟨t, hnone, hanswered, hanswers, runLines_cons rest hq ht⟩

end Sys2Proof.Machine
end

section
/-! PROOFS. The statements of 30_encoding.md on instructions and lines: encoding and decoding (O1, O2), the ports of each row (O5),
words written out by the spec (O6), what a line assembles to (O58), and the outputs it receives (O59). -/
namespace Sys2Proof.Machine

/-! ### Encoding and decoding -/

/-- A field that fits a port is read back from it. -/
theorem extractLsb'_setWidth {n : ℕ} (h : n ≤ 128) (v : BitVec n) : (v.setWidth 128).extractLsb' 0 n = v := by
  apply BitVec.eq_of_toNat_eq
  have hlt : v.toNat < 2 ^ 128 := v.isLt.trans_le (Nat.pow_le_pow_right (by decide) h)
  rw [toNat_extractLsb'_zero, BitVec.toNat_setWidth, Nat.mod_eq_of_lt hlt, Nat.mod_eq_of_lt v.isLt]

/-- The ports of an instruction's request are its operands (30_encoding.md R53, R57). -/
theorem decode_instrRequest (i : Instr) : i.request.decode = .ok i := by
  cases i with
  | encodeF128 s e f =>
    have hs : ((BitVec.ofBool s).setWidth 128 : Word).getLsbD 0 = s := by simp
    have he := extractLsb'_setWidth (by decide) e
    have hf := extractLsb'_setWidth (by decide) f
    change Except.ok (Instr.encodeF128 (((BitVec.ofBool s).setWidth 128 : Word).getLsbD 0)
      ((e.setWidth 128).extractLsb' 0 15) ((f.setWidth 128).extractLsb' 0 112)) = _
    rw [hs, he, hf]
  | _ => rfl

/-- Settles O1: decoding a request's word is decoding its ports, which are the instruction's operands. -/
theorem encodeThenDecode : Obligations.EncodeThenDecode := fun i _ =>
  (decode_word i.request).trans (decode_instrRequest i)

/-- A field of a port, zero-extended, is the port masked with the bits of the field. -/
theorem setWidth_extractLsb' (n : ℕ) (v : Word) :
    (v.extractLsb' 0 n).setWidth 128 = v &&& (BitVec.allOnes n).setWidth 128 := by
  apply BitVec.eq_of_getLsbD_eq
  intro i hi
  simp [hi, Bool.and_comm]

/-- The request an instruction stands for has the bits of the decoded request that the operation reads, and 0 elsewhere
(30_encoding.md R53, R54). -/
theorem request_of_decode {q : Request} {i : Instr} (h : q.decode = .ok i) :
    i.request =
      { op := q.op
        a := q.a &&& (readPorts q.op).a
        b := q.b &&& (readPorts q.op).b
        c := q.c &&& (readPorts q.op).c
        amt := q.amt &&& (readPorts q.op).amt } := by
  have hop := op_of_decode h
  have hsign : (BitVec.ofBool (q.a.getLsbD 0)).setWidth 128 = q.a &&& (BitVec.allOnes 1).setWidth 128 := by
    rw [← setWidth_extractLsb']
    congr 1
    apply BitVec.eq_of_getLsbD_eq
    intro i hi
    obtain rfl : i = 0 := by omega
    simp
  have hexp := setWidth_extractLsb' 15 q.b
  have hfrac := setWidth_extractLsb' 112 q.c
  have hzero {n : ℕ} (v : BitVec n) : v &&& 0 = 0 := BitVec.and_zero
  unfold Request.decode at h
  split at h
  case h_15 => cases h
  all_goals
    rename_i hn
    cases h
    simp only [Instr.request, hop, readPorts, hn, hsign, hexp, hfrac, BitVec.and_allOnes, hzero]

/-- Settles O2: both words have the same ports, those of the decoded request masked with the bits the operation reads. -/
theorem decodeThenEncode : Obligations.DecodeThenEncode := by
  intro w i h
  obtain ⟨-, hword⟩ := requestWordLayout
  have hports : i.request = Request.ofWord (w &&& readMask (Request.ofWord w).op) := by
    rw [request_of_decode h, ofWord_and, ofWord_readMask, readPorts_op, BitVec.and_allOnes]
  rw [encode, hports, hword]
  rfl

/-! ### The rows of the op-select map -/

/-- Settles O5: decoding a request's word is decoding its ports, and `op` selects the row. -/
theorem operandPorts : Obligations.OperandPorts := by
  intro q
  rw [decode_word, Request.decode]
  and_intros <;> (intro h; rw [h]; rfl)

/-- Settles O6: by evaluation of the decoder on the four words. -/
theorem writtenWordsDecode : Obligations.WrittenWordsDecode := by
  and_intros <;> decide +kernel

/-! ### Lines -/

theorem asAmount_setWidth (n : Amount) : asAmount (n.setWidth 128) = some n := by
  have hn : (n.setWidth 128).toNat = n.toNat := BitVec.toNat_setWidth_of_le (by decide)
  rw [asAmount, hn, if_pos n.isLt, BitVec.setWidth_setWidth_of_le _ (by decide), BitVec.setWidth_eq]

/-- The request of every line is legal by encoding (30_encoding.md R56, R57). -/
theorem op_le_of_assemble {m : Mnemonic} {ws : List Word} {q : Request} (h : assemble m ws = some q) :
    q.op.toNat ≤ 0xD := by
  unfold assemble at h
  split at h
  case h_11 | h_12 | h_13 | h_14 =>
    obtain ⟨amt, -, rfl⟩ := Option.map_eq_some_iff.mp h
    exact Nat.le_of_ble_eq_true rfl
  case h_18 => cases h
  all_goals
    cases h
    exact Nat.le_of_ble_eq_true rfl

/-- Settles O58: a line with as many outputs as its form assembles to what `assemble` makes of its words, which has a legal
op. -/
theorem lineAssemblesToOneRequest : Obligations.LineAssemblesToOneRequest := by
  refine ⟨fun h v => LineOperand.word_literal h, fun h n m w => ⟨LineOperand.word_held_self h n w,
    LineOperand.word_held_other h w⟩, fun h ts os ws hw => ?_, fun h l q hq => ?_⟩
  · have hreq (m : Mnemonic) {vs : List Word} (ht : ts.length = m.outputs.length) (hvs : ws = vs) :
        SourceLine.request h ⟨ts, m, os⟩ = assemble m vs :=
      SourceLine.request_of_words ht (hvs ▸ hw)
    refine ⟨fun a b ht hvs => ⟨hreq .ADD_QPO ht hvs, hreq .SUB_QPO ht hvs, hreq .MUL_QPO ht hvs, hreq .DIV_QPO ht hvs⟩,
      fun a b c => hreq .FMA_QPO, fun a => hreq .CLASS_F128, fun a => hreq .DECODE_F128,
      fun sign exp frac => hreq .ENCODE_F128, fun a b => hreq .MUL_128X128, fun hi lo d => hreq .DIV_256BY128,
      fun a amt ht hvs => ?_, fun hi lo amt ht hvs => ?_, fun m q hq ht => (hreq m ht rfl).trans hq⟩
    · rw [hreq .SRS_128 ht hvs, hreq .SLS_128 ht hvs, assemble, assemble, asAmount_setWidth]
      exact ⟨rfl, rfl⟩
    · rw [hreq .SRS_256 ht hvs, hreq .SLS_256 ht hvs, assemble, assemble, asAmount_setWidth]
      exact ⟨rfl, rfl⟩
  · obtain ⟨-, ws, -, hassemble⟩ := SourceLine.request_cases hq
    have hop := op_le_of_assemble hassemble
    obtain ⟨i, hi⟩ := decode_of_op_le hop
    exact ⟨decide_eq_true hop, i, (decode_word q).trans hi, op_of_decode hi⟩

/-- The mnemonics of one form receive the form's ports under the line's names, the newest first (30_encoding.md R57, R58). -/
theorem receive_of_outputs {m : Mnemonic} {ms : List Mnemonic} {ps : List OutputPort} (hm : m ∈ ms)
    (hps : ∀ k ∈ ms, k.outputs = ps) (h : Held) (ts : List HeldName) (os : List LineOperand) (s : State) :
    SourceLine.receive h ⟨ts, m, os⟩ s = (ts.zip (ps.map (OutputPort.word s))).reverse ++ h := by
  rw [SourceLine.receive, hps m hm]

/-- Settles O59: each clause is one form, whose mnemonics name the same ports in the same order. -/
theorem lineReceivesOutputs : Obligations.LineReceivesOutputs := by
  intro h os s x y z m
  have hf : BitVec.ofNat 128 s.f.toNat = OutputPort.word s .f := by
    rw [OutputPort.word]
    cases s.f <;> rfl
  rw [hf]
  exact ⟨fun hm => receive_of_outputs (ps := [.r]) hm (by decide) h [x] os s,
    fun hm => receive_of_outputs (ps := [.r, .f]) hm (by decide) h [x, y] os s,
    fun hm => receive_of_outputs (ps := [.r, .r2]) hm (by decide) h [x, y] os s,
    fun hm => receive_of_outputs (ps := [.r, .r2, .f]) hm (by decide) h [x, y, z] os s⟩

end Sys2Proof.Machine
end

section
/-! PROOFS. The statement of 40_codec_classifier.md on NaN selection (O24), and those of 42_round_to_odd.md on what rounding
keeps: representable values (O35), inexact results (O36), order and sign (O37), and `Finish` (O40). -/
namespace Sys2Proof.Machine

/-! ### NaN selection -/

/-- Settles O24: the first NaN is the one with no NaN before it. -/
theorem firstNaNSelected : Obligations.FirstNaNSelected := by
  intro xs y
  simp only [selectNaN, Option.map_eq_some_iff, List.find?_eq_some_iff_append, Bool.not_eq_true']
  constructor
  · rintro ⟨x, ⟨hx, before, after, hxs, hbefore⟩, rfl⟩
    exact ⟨before, x, after, hxs, hbefore, hx, rfl⟩
  · rintro ⟨before, x, after, hxs, hbefore, hx, rfl⟩
    exact ⟨x, ⟨hx, before, after, hxs, hbefore⟩, rfl⟩

/-! ### Representable values -/

theorem magnitude_pos {v : Word} (h : isZero v = false) : 0 < magnitude v :=
  (magnitude_nonneg v).lt_of_ne' (by simp [magnitude_eq_zero_iff, h])

/-- RTO of a nonzero pattern's sign and magnitude is the pattern (42_round_to_odd.md R84). -/
theorem rto_magnitude {v : Word} (h : isFinite v = true) (h0 : isZero v = false) :
    rto (signBit v) (magnitude v) = v := by
  have hround : roundToOdd (signBit v) (magnitude v) = v := by
    rw [← fromReal_signed _ (magnitude_pos h0) (signBit v)]
    exact fromReal_value h
  rwa [roundToOdd, if_neg (magnitude_le_maxV h).not_gt] at hround

/-- Settles O35: a nonzero finite pattern does not overflow, so RTO and FromReal agree on it. -/
theorem representableUnchanged : Obligations.RepresentableUnchanged := by
  intro v zs h hv
  have h0 : isZero v = false := by rwa [ne_eq, value_eq_zero_iff, Bool.not_eq_true] at hv
  exact ⟨rto_magnitude h h0, fromReal_value_of_not_isZero h h0 zs⟩

/-! ### Inexact results -/

theorem signed_abs (x : ℚ) : signed (decide (x < 0)) |x| = x := by
  rcases lt_or_ge x 0 with h | h
  · simp [signed, h, abs_of_neg h]
  · simp [signed, h.not_gt, abs_of_nonneg h]

/-- Settles O36: the packed significand is nonzero, and it is odd unless the value is exact. -/
theorem inexactIsOddNeverZeroNorInfinite : Obligations.InexactIsOddNeverZeroNorInfinite := by
  intro x zs hx
  obtain ⟨e, t, h1, h2, -, ht, hnorm, hpack, hodd⟩ := roundToOdd_spec (abs_pos.mpr hx)
  have hzero := isZero_roundToOdd (decide (x < 0)) (abs_pos.mpr hx)
  rw [fromReal_of_ne_zero hx, ne_eq, value_eq_zero_iff, hzero, hpack]
  obtain ⟨hsign, -, -⟩ := packResult_fields (decide (x < 0)) h1 h2 ht
  refine ⟨packResult_isFinite _ h1 h2 ht, Bool.false_ne_true, hsign, fun hne => ?_⟩
  rw [packResult_getLsbD_zero _ h1 h2 ht, decide_eq_true_iff]
  refine hodd.resolve_left fun hexact => hne ?_
  rw [value, hsign, packResult_magnitude _ h1 h2 ht hnorm, hexact, signed_abs]

/-- Rounding never gives an infinity (42_round_to_odd.md R82, R84). -/
theorem isFinite_fromReal (x : ℚ) (zs : Bool) : isFinite (fromReal x zs) = true := by
  by_cases hx : x = 0
  · rw [hx, fromReal_zero]
    exact isFinite_of_isZero (isZero_signWord zs)
  · exact (inexactIsOddNeverZeroNorInfinite x zs hx).1

/-! ### Sign and order -/

/-- The sign of a packed result is its sign bit alone. -/
theorem packResult_not (s : Bool) {e : ℤ} {t : ℕ} (h1 : -16382 ≤ e) (h2 : e ≤ 16383) (ht : t < 2 ^ 113) :
    packResult (!s) e t = packResult s e t ^^^ nZero := by
  obtain ⟨hs, he, hf⟩ := packResult_fields s h1 h2 ht
  obtain ⟨hs', he', hf'⟩ := packResult_fields (!s) h1 h2 ht
  obtain ⟨hxs, hxe, hxf⟩ := fields_xor_nZero (packResult s e t)
  apply word_ext
  · rw [hs', hxs, hs]
  · exact BitVec.eq_of_toNat_eq (by rw [he', hxe, he])
  · exact BitVec.eq_of_toNat_eq (by rw [hf', hxf, hf])

theorem roundToOdd_not (s : Bool) {x : ℚ} (hx : 0 < x) : roundToOdd (!s) x = roundToOdd s x ^^^ nZero := by
  obtain ⟨e, t, h1, h2, -, ht, -, hpack, -⟩ := roundToOdd_spec hx
  rw [hpack, hpack, packResult_not s h1 h2 ht]

/-- Rounding is symmetric in sign (42_round_to_odd.md R84). -/
theorem fromReal_neg (x : ℚ) (zs : Bool) : fromReal (-x) (!zs) = fromReal x zs ^^^ nZero := by
  by_cases hx : x = 0
  · rw [hx, neg_zero, fromReal_zero, fromReal_zero]
    cases zs <;> decide
  · have hsign : decide (-x < 0) = !decide (x < 0) := by
      rcases lt_or_gt_of_ne hx with h | h <;> simp [h, h.le]
    rw [fromReal_of_ne_zero (neg_ne_zero.mpr hx), fromReal_of_ne_zero hx, abs_neg, hsign,
      roundToOdd_not _ (abs_pos.mpr hx)]

theorem value_fromReal_neg (x : ℚ) (zs : Bool) : value (fromReal (-x) zs) = -value (fromReal x (!zs)) := by
  have h := fromReal_neg x (!zs)
  rw [Bool.not_not] at h
  rw [h, value_xor_nZero, signed_not, ← value]

/-- A value that does not overflow rounds to its odd significand at its quantum (42_round_to_odd.md R83). -/
theorem magnitude_roundToOdd (s : Bool) {x : ℚ} (hx : 0 < x) (h : x ≤ maxV) :
    magnitude (roundToOdd s x) = (oddSignificand x : ℚ) * quantum x := by
  obtain ⟨h1, h2, -, ht, hnorm⟩ := oddSignificand_bounds hx h
  rw [roundToOdd, if_neg h.not_gt, rto, packResult_magnitude s h1 h2 ht hnorm, quantum_eq]

theorem value_fromReal_of_pos {x : ℚ} (hx : 0 < x) (zs : Bool) :
    value (fromReal x zs) = magnitude (roundToOdd false x) := by
  obtain ⟨e, t, h1, h2, -, ht, -, hpack, -⟩ := roundToOdd_spec hx
  have hs : signBit (roundToOdd false x) = false := by
    rw [hpack]
    exact (packResult_fields false h1 h2 ht).1
  rw [fromReal_of_ne_zero hx.ne', abs_of_pos hx, decide_eq_false hx.le.not_gt, value_eq, hs, if_neg Bool.false_ne_true]

/-- The clamped exponent is monotonic. -/
theorem binade_mono {x y : ℚ} (hx : 0 < x) (hxy : x ≤ y) : binade x ≤ binade y := by
  obtain ⟨hfloor, hlt, -⟩ := binade_spec (hx.trans_le hxy)
  obtain ⟨-, -, hge⟩ := binade_spec hx
  rcases hge with hge | hge
  · omega
  · have := zpow_two_lt_iff.mp ((hge.trans hxy).trans_lt hlt)
    omega

/-- At one quantum the odd significand is monotonic: between two truncated values `t` and `t + 1` every value has the same one. -/
theorem oddSignificand_mono {x y : ℚ} (hx : 0 < x) (hxy : x ≤ y) (hb : binade x = binade y) :
    oddSignificand x ≤ oddSignificand y := by
  have hq : quantum x = quantum y := by rw [quantum_eq, quantum_eq, hb]
  have hqpos : 0 < quantum y := by rw [quantum_eq]; exact zpow_two_pos _
  obtain ⟨hxlo, -⟩ := truncated_spec hx
  obtain ⟨-, hyup⟩ := truncated_spec (hx.trans_le hxy)
  obtain ⟨-, hxodd, -⟩ := oddSignificand_spec x
  obtain ⟨hyodd, -, -⟩ := oddSignificand_spec y
  have hlt : truncated x < truncated y + 1 := by
    rw [hq] at hxlo
    exact_mod_cast lt_of_mul_lt_mul_right ((hxlo.trans hxy).trans_lt hyup) hqpos.le
  rcases Nat.lt_or_ge (truncated x) (truncated y) with h | h
  · omega
  · have ht : truncated x = truncated y := by omega
    by_cases hexact : (truncated x : ℚ) * quantum x = x
    · rw [oddSignificand, if_pos hexact]
      omega
    · have hy : (truncated y : ℚ) * quantum y ≠ y := by
        rw [← ht, ← hq]
        exact ((hxlo.lt_of_ne hexact).trans_le hxy).ne
      rw [oddSignificand, oddSignificand, if_neg hexact, if_neg hy, ht]

theorem magnitude_withSign_maxF (s : Bool) : magnitude (withSign s maxF) = maxV := by
  have hmag : magnitude maxF = maxV := by
    rw [← abs_value]
    exact abs_of_pos maxV_pos
  have hneg : withSign true maxF = maxF ^^^ nZero := by decide
  cases s
  · exact hmag
  · rw [hneg, magnitude_xor_nZero, hmag]

/-- Rounding positive values is monotonic: within a binade by the significands, across binades by the power of two between
them, and above MAXV by the largest magnitude (42_round_to_odd.md R84). -/
theorem magnitude_roundToOdd_mono (s : Bool) {x y : ℚ} (hx : 0 < x) (hxy : x ≤ y) :
    magnitude (roundToOdd s x) ≤ magnitude (roundToOdd s y) := by
  have hy := hx.trans_le hxy
  rcases lt_or_ge maxV y with hmax | hmax
  · obtain ⟨e, t, h1, h2, -, ht, -, hpack, -⟩ := roundToOdd_spec hx
    have hfin : isFinite (roundToOdd s x) = true := by rw [hpack]; exact packResult_isFinite s h1 h2 ht
    have htop : roundToOdd s y = withSign s maxF := if_pos hmax
    rw [htop, magnitude_withSign_maxF]
    exact magnitude_le_maxV hfin
  · rw [magnitude_roundToOdd s hx (hxy.trans hmax), magnitude_roundToOdd s hy hmax]
    have hbin := binade_mono hx hxy
    rcases hbin.eq_or_lt with hb | hb
    · rw [quantum_eq, quantum_eq, hb]
      exact mul_le_mul_of_nonneg_right (by exact_mod_cast oddSignificand_mono hx hxy hb) (zpow_two_pos _).le
    · obtain ⟨hfloor, -, -⟩ := binade_spec hx
      obtain ⟨-, -, hge⟩ := binade_spec hy
      have htop : 2 ^ 112 ≤ oddSignificand y :=
        (le_truncated hy (hge.resolve_left (by omega))).trans (oddSignificand_spec y).1
      rw [quantum_eq, quantum_eq]
      calc (oddSignificand x : ℚ) * (2 : ℚ) ^ (binade x - 112)
          ≤ (2 : ℚ) ^ ((113 : ℕ) + (binade x - 112)) := (mul_zpow_lt (oddSignificand_lt hx)).le
        _ ≤ (2 : ℚ) ^ ((112 : ℕ) + (binade y - 112)) := zpow_two_le_iff.mpr (by push_cast; omega)
        _ ≤ (oddSignificand y : ℚ) * (2 : ℚ) ^ (binade y - 112) := le_mul_zpow htop

theorem value_fromReal_nonneg {x : ℚ} (hx : 0 ≤ x) (zs : Bool) : 0 ≤ value (fromReal x zs) := by
  rcases hx.eq_or_lt with rfl | hx
  · rw [fromReal_zero, (value_eq_zero_iff _).mpr (isZero_signWord zs)]
  · rw [value_fromReal_of_pos hx]
    exact magnitude_nonneg _

theorem value_fromReal_nonpos {x : ℚ} (hx : x ≤ 0) (zs : Bool) : value (fromReal x zs) ≤ 0 := by
  rw [← neg_neg x, value_fromReal_neg]
  exact neg_nonpos.mpr (value_fromReal_nonneg (neg_nonneg.mpr hx) _)

theorem value_fromReal_mono_of_pos {x y : ℚ} (hx : 0 < x) (hxy : x ≤ y) (zs zs' : Bool) :
    value (fromReal x zs) ≤ value (fromReal y zs') := by
  rw [value_fromReal_of_pos hx, value_fromReal_of_pos (hx.trans_le hxy)]
  exact magnitude_roundToOdd_mono false hx hxy

/-- Rounding is monotonic (42_round_to_odd.md R84): on each side of 0 by the magnitudes, across 0 by the signs. -/
theorem value_fromReal_mono {x y : ℚ} (hxy : x ≤ y) (zs zs' : Bool) :
    value (fromReal x zs) ≤ value (fromReal y zs') := by
  rcases lt_or_ge 0 x with hx | hx
  · exact value_fromReal_mono_of_pos hx hxy zs zs'
  · rcases lt_or_ge y 0 with hy | hy
    · have h := value_fromReal_mono_of_pos (neg_pos.mpr hy) (neg_le_neg hxy) (!zs') (!zs)
      rwa [value_fromReal_neg, value_fromReal_neg, neg_le_neg_iff, Bool.not_not, Bool.not_not] at h
    · exact (value_fromReal_nonpos hx zs).trans (value_fromReal_nonneg hy zs')

/-- Settles O37: the order by the magnitudes, the symmetry by the sign bit alone. -/
theorem roundingMonotoneAndSymmetric : Obligations.RoundingMonotoneAndSymmetric :=
  ⟨fun _ _ zs zs' hxy => value_fromReal_mono hxy zs zs', fromReal_neg⟩

/-! ### Finish -/

/-- A right shift of the working value truncates the value it stands for, and loses nothing exactly where the sticky bit and the
discarded bits are 0 (42_round_to_odd.md R89). -/
theorem shifted_spec {m : ℕ} {k : ℤ} {x : ℚ} (n : ℕ) (h1 : (m : ℚ) * (2 : ℚ) ^ k ≤ x)
    (h2 : x < ((m : ℚ) + 1) * (2 : ℚ) ^ k) :
    ((m / 2 ^ n : ℕ) : ℚ) * (2 : ℚ) ^ (n + k : ℤ) ≤ x ∧ x < (((m / 2 ^ n : ℕ) : ℚ) + 1) * (2 : ℚ) ^ (n + k : ℤ) ∧
      (((m / 2 ^ n : ℕ) : ℚ) * (2 : ℚ) ^ (n + k : ℤ) = x ↔ x = (m : ℚ) * (2 : ℚ) ^ k ∧ m % 2 ^ n = 0) := by
  have hz := zpow_two_pos k
  rw [← natPow_mul_zpow, ← mul_assoc, ← mul_assoc]
  have hlo : ((m / 2 ^ n : ℕ) : ℚ) * ((2 ^ n : ℕ) : ℚ) ≤ m := by exact_mod_cast Nat.div_mul_le_self m (2 ^ n)
  have hup : (m : ℚ) + 1 ≤ (((m / 2 ^ n : ℕ) : ℚ) + 1) * ((2 ^ n : ℕ) : ℚ) := by
    exact_mod_cast mul_comm (2 ^ n) _ ▸ Nat.lt_mul_div_succ m (by positivity)
  have hlo' := mul_le_mul_of_nonneg_right hlo hz.le
  refine ⟨hlo'.trans h1, h2.trans_le (mul_le_mul_of_nonneg_right hup hz.le), fun h => ?_, fun ⟨hx, hmod⟩ => ?_⟩
  · have hx : x = (m : ℚ) * (2 : ℚ) ^ k := le_antisymm (h ▸ hlo') h1
    have hm : m / 2 ^ n * 2 ^ n = m := by exact_mod_cast mul_right_cancel₀ hz.ne' (h.trans hx)
    exact ⟨hx, Nat.mod_eq_zero_of_dvd (Dvd.intro_left _ hm)⟩
  · rw [hx]
    congr 1
    exact_mod_cast Nat.div_mul_cancel (Nat.dvd_of_mod_eq_zero hmod)

/-- `Finish` where it shifts right (42_round_to_odd.md R88). -/
theorem finish_shiftRight (s : Bool) {m n : ℕ} {k : ℤ} (st : Bool) (hover : (bitlen m : ℤ) - 1 + k < 16384)
    (hn : finishShift m k = n) :
    finish s m k st =
      packResult s (finishBinade m k) (if st = false ∧ m % 2 ^ n = 0 then m / 2 ^ n else m / 2 ^ n ||| 1) := by
  have hlost : (m % 2 ^ n != 0) = !decide (m % 2 ^ n = 0) := rfl
  by_cases hmod : m % 2 ^ n = 0 <;> cases st <;>
    simp [finish, hover.not_ge, hn, hlost, hmod, Nat.shiftRight_eq_div_pow]

/-- `Finish` where it shifts left (42_round_to_odd.md R88). -/
theorem finish_shiftLeft (s : Bool) {m n : ℕ} {k : ℤ} (hover : (bitlen m : ℤ) - 1 + k < 16384)
    (hn : finishShift m k = -n) (hpos : 0 < n) :
    finish s m k false = packResult s (finishBinade m k) (m * 2 ^ n) := by
  simp [finish, hover.not_ge, hn, hpos.ne', Nat.shiftLeft_eq]

/-- The top bit of the working value is the top bit of the value it truncates. -/
theorem bitlen_bounds {m : ℕ} {k : ℤ} {x : ℚ} (hm : 1 ≤ m) (h1 : (m : ℚ) * (2 : ℚ) ^ k ≤ x)
    (h2 : x < ((m : ℚ) + 1) * (2 : ℚ) ^ k) :
    (2 : ℚ) ^ ((bitlen m : ℤ) - 1 + k) ≤ x ∧ x < (2 : ℚ) ^ ((bitlen m : ℤ) - 1 + k + 1) := by
  obtain ⟨b, hb, hlen, hlen'⟩ := bitlen_spec (m := m) (by omega)
  have hle : (m : ℚ) + 1 ≤ ((2 ^ (b + 1) : ℕ) : ℚ) := by exact_mod_cast hlen'
  have hlo : (bitlen m : ℤ) - 1 + k = b + k := by omega
  have hup : (b : ℤ) + k + 1 = (b + 1 : ℕ) + k := by omega
  rw [hlo, hup, ← natPow_mul_zpow (b + 1)]
  exact ⟨(le_mul_zpow hlen).trans h1, h2.trans_le (mul_le_mul_of_nonneg_right hle (zpow_two_pos k).le)⟩

theorem finishBinade_bounds {m : ℕ} {k : ℤ} (hover : (bitlen m : ℤ) - 1 + k < 16384) :
    -16382 ≤ finishBinade m k ∧ finishBinade m k ≤ 16383 := by
  unfold finishBinade
  omega

/-- The exponent of `Finish` is the clamped exponent of the value (42_round_to_odd.md R88, R89). -/
theorem finishBinade_spec {m : ℕ} {k : ℤ} {x : ℚ} (h1 : (2 : ℚ) ^ ((bitlen m : ℤ) - 1 + k) ≤ x)
    (h2 : x < (2 : ℚ) ^ ((bitlen m : ℤ) - 1 + k + 1)) :
    x < (2 : ℚ) ^ (finishBinade m k + 1) ∧ (finishBinade m k = -16382 ∨ (2 : ℚ) ^ finishBinade m k ≤ x) := by
  unfold finishBinade
  rcases le_total ((bitlen m : ℤ) - 1 + k) (-16382) with h | h
  · rw [max_eq_right h]
    exact ⟨h2.trans_le (zpow_two_le_iff.mpr (by omega)), .inl rfl⟩
  · rw [max_eq_left h]
    exact ⟨h2, .inr h1⟩

/-- `Finish` below the overflow, shifting right: the shifted working value is the truncated significand. -/
theorem finish_shiftRight_eq_roundToOdd (s : Bool) {m n : ℕ} {k : ℤ} {st : Bool} {x : ℚ} (hm : 1 ≤ m)
    (h1 : (m : ℚ) * (2 : ℚ) ^ k ≤ x) (h2 : x < ((m : ℚ) + 1) * (2 : ℚ) ^ k)
    (hst : st = true ↔ x ≠ (m : ℚ) * (2 : ℚ) ^ k) (hover : (bitlen m : ℤ) - 1 + k < 16384)
    (hn : finishShift m k = n) : finish s m k st = roundToOdd s x := by
  obtain ⟨hlo, hup⟩ := bitlen_bounds hm h1 h2
  obtain ⟨hlt, hge⟩ := finishBinade_spec hlo hup
  obtain ⟨hfloor, hceil⟩ := finishBinade_bounds hover
  obtain ⟨ht, ht', hexact⟩ := shifted_spec n h1 h2
  have hq : (n : ℤ) + k = finishBinade m k - 112 := by rw [← hn, finishShift]; ring
  have hst' : x = (m : ℚ) * (2 : ℚ) ^ k ↔ st = false := by rw [← Bool.not_eq_true, hst, not_not]
  rw [hst'] at hexact
  rw [hq] at ht ht' hexact
  rw [finish_shiftRight s st hover hn, roundToOdd_eq s ((zpow_two_pos _).trans_le hlo) hfloor hceil hlt hge
    ht ht']
  simp only [hexact]

/-- `Finish` below the overflow, shifting left: the working value is exact, and so is the shifted one. -/
theorem finish_shiftLeft_eq_roundToOdd (s : Bool) {m n : ℕ} {k : ℤ} (hm : 1 ≤ m)
    (hover : (bitlen m : ℤ) - 1 + k < 16384) (hn : finishShift m k = -n) (hpos : 0 < n) :
    finish s m k false = roundToOdd s ((m : ℚ) * (2 : ℚ) ^ k) := by
  have hexact : ((m * 2 ^ n : ℕ) : ℚ) * (2 : ℚ) ^ (finishBinade m k - 112) = (m : ℚ) * (2 : ℚ) ^ k := by
    have hk : (n : ℤ) + (finishBinade m k - 112) = k := by rw [finishShift] at hn; omega
    rw [Nat.cast_mul, mul_assoc, natPow_mul_zpow, hk]
  obtain ⟨hlo, hup⟩ := bitlen_bounds hm le_rfl (mul_lt_mul_of_pos_right (lt_add_one _) (zpow_two_pos k))
  obtain ⟨hlt, hge⟩ := finishBinade_spec hlo hup
  obtain ⟨hfloor, hceil⟩ := finishBinade_bounds hover
  have hup' := mul_lt_mul_of_pos_right (lt_add_one ((m * 2 ^ n : ℕ) : ℚ)) (zpow_two_pos (finishBinade m k - 112))
  rw [finish_shiftLeft s hover hn hpos, roundToOdd_eq s ((zpow_two_pos _).trans_le hlo) hfloor hceil hlt hge
    hexact.le (hexact ▸ hup'), if_pos hexact]

/-- `Finish` under its precondition is round-to-odd of the exact magnitude: the overflow, and the two directions of the shift
(42_round_to_odd.md R88, R89). -/
theorem finish_eq_roundToOdd (s : Bool) {m : ℕ} {k : ℤ} {st : Bool} {x : ℚ} (hm : 1 ≤ m)
    (h1 : (m : ℚ) * (2 : ℚ) ^ k ≤ x) (h2 : x < ((m : ℚ) + 1) * (2 : ℚ) ^ k)
    (hst : st = true ↔ x ≠ (m : ℚ) * (2 : ℚ) ^ k) (hright : st = true → 0 ≤ finishShift m k) :
    finish s m k st = roundToOdd s x := by
  rcases le_or_gt 16384 ((bitlen m : ℤ) - 1 + k) with hover | hover
  · obtain ⟨hlo, -⟩ := bitlen_bounds hm h1 h2
    rw [finish, if_pos hover, roundToOdd_overflow s ((zpow_two_le_iff.mpr hover).trans hlo)]
  · rcases le_or_gt 0 (finishShift m k) with hsh | hsh
    · obtain ⟨n, hn⟩ := Int.eq_ofNat_of_zero_le hsh
      exact finish_shiftRight_eq_roundToOdd s hm h1 h2 hst hover hn
    · have hstf : ¬ st = true := fun h => hsh.not_ge (hright h)
      obtain rfl : x = (m : ℚ) * (2 : ℚ) ^ k := not_not.mp (mt hst.mpr hstf)
      rw [Bool.not_eq_true] at hstf
      rw [hstf]
      exact finish_shiftLeft_eq_roundToOdd (n := (-finishShift m k).toNat) s hm hover (by omega) (by omega)

/-- Settles O40: the binade of the working value is that of `x`, and the shifted working value its truncated significand. -/
theorem finishRoundsToOdd : Obligations.FinishRoundsToOdd := fun s _ _ _ _ => finish_eq_roundToOdd s

/-- `Finish` of an exact working value rounds it (42_round_to_odd.md R89). -/
theorem finish_exact (s : Bool) {m : ℕ} (k : ℤ) (hm : 1 ≤ m) :
    finish s m k false = roundToOdd s ((m : ℚ) * (2 : ℚ) ^ k) := by
  exact finish_eq_roundToOdd s hm le_rfl (mul_lt_mul_of_pos_right (lt_add_one _) (zpow_two_pos _)) (by simp) (by simp)

/-- `Finish` discards a bit where the working value has more than 113 bits, or its scale is below the subnormal floor. -/
theorem one_le_finishShift {m : ℕ} {k : ℤ} (h : 2 ^ 113 ≤ m ∨ k ≤ -16495) : 1 ≤ finishShift m k := by
  unfold finishShift finishBinade
  rcases h with h | h
  · obtain ⟨n, hn, -, hlt⟩ := bitlen_spec (m := m) (by omega)
    have hle : 113 < n + 1 := (Nat.pow_lt_pow_iff_right (by decide)).mp (h.trans_lt hlt)
    omega
  · omega

/-! ### Sums of a working value and an addend -/

theorem signed_add_signed (s t : Bool) (x y : ℚ) :
    signed s x + signed t y = signed s (if s = t then x + y else x - y) := by
  cases s <;> cases t <;> simp [signed] <;> ring

/-- `Finish` of an exact sum or difference rounds it, an exact zero taking the sign supplied. -/
theorem finish_exact_sum (s t : Bool) {m r : ℕ} (k : ℤ) (zs : Bool) (hr : r ≤ m) :
    (if (if s = t then m + r else m - r) = 0 then signWord zs else finish s (if s = t then m + r else m - r) k false) =
      fromReal (signed s ((m : ℚ) * (2 : ℚ) ^ k) + signed t ((r : ℚ) * (2 : ℚ) ^ k)) zs := by
  have hsum : (if s = t then (m : ℚ) * (2 : ℚ) ^ k + r * (2 : ℚ) ^ k else m * (2 : ℚ) ^ k - r * (2 : ℚ) ^ k) =
      ((if s = t then m + r else m - r : ℕ) : ℚ) * (2 : ℚ) ^ k := by
    split_ifs
    · rw [Nat.cast_add, add_mul]
    · rw [Nat.cast_sub hr, sub_mul]
  rw [signed_add_signed, hsum]
  generalize (if s = t then m + r else m - r) = v
  split_ifs with hv
  · have h0 : signed s (((v : ℕ) : ℚ) * (2 : ℚ) ^ k) = 0 := by cases s <;> simp [signed, hv]
    rw [h0, fromReal_zero]
  · have hpos : (0 : ℚ) < (v : ℚ) * (2 : ℚ) ^ k := mul_pos (by exact_mod_cast Nat.pos_of_ne_zero hv) (zpow_two_pos k)
    rw [finish_exact s k (by omega), fromReal_signed s hpos]

/-- Three guard bits, the lowest of them in units of `2^(k+1)`. -/
theorem guard_bits (m : ℕ) (k : ℤ) : ((8 * m : ℕ) : ℚ) * (2 : ℚ) ^ k = ((4 * m : ℕ) : ℚ) * (2 : ℚ) ^ (k + 1) := by
  rw [zpow_two_add]
  push_cast
  ring

/-- `Finish` of `8 * m` plus the jammed `2 * j + 1` of an addend strictly between `j` and `j + 1` units of `2^(k+1)`
(42_round_to_odd.md R90). -/
theorem finish_jammed_add (s : Bool) {m j : ℕ} {k : ℤ} {y : ℚ} (h1 : (j : ℚ) * (2 : ℚ) ^ (k + 1) < y)
    (h2 : y < ((j : ℚ) + 1) * (2 : ℚ) ^ (k + 1)) (hbig : 2 ^ 113 ≤ 8 * m + (2 * j + 1) ∨ k ≤ -16495) :
    0 < ((8 * m : ℕ) : ℚ) * (2 : ℚ) ^ k + y ∧
      finish s (8 * m + (2 * j + 1)) k false = roundToOdd s (((8 * m : ℕ) : ℚ) * (2 : ℚ) ^ k + y) := by
  have hv : 8 * m + (2 * j + 1) = 2 * (4 * m + j) + 1 := by ring
  have hlo : ((4 * m + j : ℕ) : ℚ) * (2 : ℚ) ^ (k + 1) < ((4 * m : ℕ) : ℚ) * (2 : ℚ) ^ (k + 1) + y := by
    push_cast
    linarith
  have hup : ((4 * m : ℕ) : ℚ) * (2 : ℚ) ^ (k + 1) + y < (((4 * m + j : ℕ) : ℚ) + 1) * (2 : ℚ) ^ (k + 1) := by
    push_cast
    linarith
  rw [guard_bits]
  rw [hv] at hbig ⊢
  exact ⟨lt_of_le_of_lt (by positivity) hlo, finish_odd_eq_roundToOdd s false hlo hup (one_le_finishShift hbig)⟩

/-- The same for `8 * m` minus the addend (42_round_to_odd.md R90). -/
theorem finish_jammed_sub (s : Bool) {m j : ℕ} {k : ℤ} {y : ℚ} (h1 : (j : ℚ) * (2 : ℚ) ^ (k + 1) < y)
    (h2 : y < ((j : ℚ) + 1) * (2 : ℚ) ^ (k + 1)) (hle : 2 * j + 1 ≤ 8 * m)
    (hbig : 2 ^ 113 ≤ 8 * m - (2 * j + 1) ∨ k ≤ -16495) :
    0 < ((8 * m : ℕ) : ℚ) * (2 : ℚ) ^ k - y ∧
      finish s (8 * m - (2 * j + 1)) k false = roundToOdd s (((8 * m : ℕ) : ℚ) * (2 : ℚ) ^ k - y) := by
  obtain ⟨i, hi⟩ : ∃ i, 4 * m = i + (j + 1) := ⟨4 * m - (j + 1), by omega⟩
  have hv : 8 * m - (2 * j + 1) = 2 * i + 1 := by omega
  have hlo : (i : ℚ) * (2 : ℚ) ^ (k + 1) < ((4 * m : ℕ) : ℚ) * (2 : ℚ) ^ (k + 1) - y := by
    rw [hi]
    push_cast
    linarith
  have hup : ((4 * m : ℕ) : ℚ) * (2 : ℚ) ^ (k + 1) - y < ((i : ℚ) + 1) * (2 : ℚ) ^ (k + 1) := by
    rw [hi]
    push_cast
    linarith
  rw [guard_bits]
  rw [hv] at hbig ⊢
  exact ⟨lt_of_le_of_lt (by positivity) hlo, finish_odd_eq_roundToOdd s false hlo hup (one_le_finishShift hbig)⟩

/-- `Finish` of a jammed sum or difference rounds the exact one, under the sign of the larger operand. -/
theorem finish_jammed_sum (s t : Bool) {m j : ℕ} {k : ℤ} {y : ℚ} (zs : Bool) (h1 : (j : ℚ) * (2 : ℚ) ^ (k + 1) < y)
    (h2 : y < ((j : ℚ) + 1) * (2 : ℚ) ^ (k + 1)) (hle : 2 * j + 1 ≤ 8 * m)
    (hbig : 2 ^ 113 ≤ 8 * m - (2 * j + 1) ∨ k ≤ -16495) :
    finish s (if s = t then 8 * m + (2 * j + 1) else 8 * m - (2 * j + 1)) k false =
      fromReal (signed s (((8 * m : ℕ) : ℚ) * (2 : ℚ) ^ k) + signed t y) zs := by
  rw [signed_add_signed]
  split_ifs
  · obtain ⟨hpos, hfinish⟩ := finish_jammed_add (m := m) s h1 h2 (hbig.imp_left (by omega))
    rw [fromReal_signed s hpos, hfinish]
  · obtain ⟨hpos, hfinish⟩ := finish_jammed_sub s h1 h2 hle hbig
    rw [fromReal_signed s hpos, hfinish]

end Sys2Proof.Machine
end

section
/-! PROOFS. The statements of 43_add_sub.md on sums: adding a zero (O45), commutation, with that of 44_mul.md (O46), close operands
(O47), and the adder's datapath (O48). -/
namespace Sys2Proof.Machine

/-! ### Adding a zero -/

/-- Row 6 of 43_add_sub.md R92 for ADD_QPO. -/
theorem resultsIn_addQpo_of_isFinite {a b : Word} (ha : isFinite a = true) (hb : isFinite b = true) :
    ResultsIn (.addQpo a b) (fromReal (value a + value b) (signBit a && signBit b)) :=
  resultsIn_addQpo_iff.mpr (addSub_of_isFinite _ ha hb)

/-- A zero of either sign, on either side, leaves a finite nonzero operand (43_add_sub.md R99). -/
theorem resultsIn_addQpo_of_isZero {a z : Word} (ha : isFinite a = true) (ha0 : isZero a = false)
    (hz : isZero z = true) : ResultsIn (.addQpo a z) a ∧ ResultsIn (.addQpo z a) a := by
  have hright := resultsIn_addQpo_of_isFinite ha (isFinite_of_isZero hz)
  have hleft := resultsIn_addQpo_of_isFinite (isFinite_of_isZero hz) ha
  rw [(value_eq_zero_iff z).mpr hz, add_zero, fromReal_value_of_not_isZero ha ha0] at hright
  rw [(value_eq_zero_iff z).mpr hz, zero_add, fromReal_value_of_not_isZero ha ha0] at hleft
  exact ⟨hright, hleft⟩

/-- The sum of two zeros (43_add_sub.md R93). -/
theorem resultsIn_addQpo_of_zeros {a b : Word} (ha : isZero a = true) (hb : isZero b = true) :
    ResultsIn (.addQpo a b) (if a = nZero ∧ b = nZero then nZero else pZero) := by
  refine resultsIn_addQpo_of_zero_sum (isFinite_of_isZero ha) (isFinite_of_isZero hb) ?_
  rw [(value_eq_zero_iff a).mpr ha, (value_eq_zero_iff b).mpr hb, add_zero]

/-- Settles O45: the exact sum is the operand's value, and a sum of zeros is an exact zero. -/
theorem addZeroIdentity : Obligations.AddZeroIdentity := by
  have hp : isZero pZero = true := by decide
  have hn : isZero nZero = true := by decide
  refine ⟨fun a ha ha0 => ?_, resultsIn_addQpo_of_zeros hp hp, resultsIn_addQpo_of_zeros hn hn,
    resultsIn_addQpo_of_zeros hp hn, resultsIn_addQpo_of_zeros hn hp⟩
  obtain ⟨hap, hpa⟩ := resultsIn_addQpo_of_isZero ha ha0 hp
  obtain ⟨han, hna⟩ := resultsIn_addQpo_of_isZero ha ha0 hn
  exact ⟨hap, han, hpa, hna⟩

/-! ### Commutation -/

/-- Infinities of one sign are one pattern (10_state.md R28). -/
theorem eq_of_isInf {a b : Word} (ha : isInf a = true) (hb : isInf b = true) (hs : signBit a = signBit b) : a = b := by
  rw [eq_withSign_of_isInf ha, eq_withSign_of_isInf hb, hs]

/-- ADD_QPO of two operands that are no NaN commutes: rows 2 to 6 of 43_add_sub.md R92. -/
theorem addSub_comm_of_not_isNaN {a b : Word} (ha : isNaN a = false) (hb : isNaN b = false) :
    addSub a b (signBit b) = addSub b a (signBit a) := by
  rcases finite_or_inf_or_nan a with hafin | hainf | hanan
  · rcases finite_or_inf_or_nan b with hbfin | hbinf | hbnan
    · rw [addSub_of_isFinite _ hafin hbfin, addSub_of_isFinite _ hbfin hafin, ← value, ← value, add_comm, Bool.and_comm]
    · rw [addSub_of_isFinite_isInf _ hafin hbinf, addSub_of_isInf_isFinite _ hbinf hafin, ← eq_withSign_of_isInf hbinf]
    · simp [hb] at hbnan
  · rcases finite_or_inf_or_nan b with hbfin | hbinf | hbnan
    · rw [addSub_of_isInf_isFinite _ hainf hbfin, addSub_of_isFinite_isInf _ hbfin hainf, ← eq_withSign_of_isInf hainf]
    · rw [addSub_of_isInf _ hainf hbinf, addSub_of_isInf _ hbinf hainf]
      by_cases hs : signBit a = signBit b
      · rw [if_pos hs, if_pos hs.symm, eq_of_isInf hainf hbinf hs]
      · rw [if_neg hs, if_neg (Ne.symm hs)]
    · simp [hb] at hbnan
  · simp [ha] at hanan

/-- MUL_QPO of two operands that are no NaN commutes: the table of 44_mul.md R100 is symmetric. -/
theorem multiply_comm_of_not_isNaN {a b : Word} (ha : isNaN a = false) (hb : isNaN b = false) :
    multiply a b = multiply b a := by
  have hinvalid : isInf a = true ∧ isZero b = true ∨ isZero a = true ∧ isInf b = true ↔
      isInf b = true ∧ isZero a = true ∨ isZero b = true ∧ isInf a = true :=
    ⟨fun h => h.symm.imp And.symm And.symm, fun h => h.symm.imp And.symm And.symm⟩
  have hsign : signXor a b = signXor b a := Bool.xor_comm _ _
  rw [multiply_of_not_isNaN ha hb, multiply_of_not_isNaN hb ha, hsign, mul_comm (value a)]
  simp only [hinvalid, or_comm (a := isInf a = true)]

/-- Both operations commute but for two NaNs whose quieted patterns differ: a single NaN is the one selected in either order. -/
theorem commute_of_quiet_eq {a b : Word} (h : ¬ (isNaN a = true ∧ isNaN b = true ∧ quiet a ≠ quiet b)) :
    addSub a b (signBit b) = addSub b a (signBit a) ∧ multiply a b = multiply b a := by
  cases ha : isNaN a with
  | true =>
    rw [addSub_of_isNaN_left _ _ ha, multiply_of_isNaN_left _ ha]
    cases hb : isNaN b with
    | true =>
      have hq : quiet a = quiet b := by
        by_contra hne
        exact h ⟨ha, hb, hne⟩
      rw [addSub_of_isNaN_left _ _ hb, multiply_of_isNaN_left _ hb]
      exact ⟨hq, hq⟩
    | false =>
      rw [addSub_of_isNaN_right _ hb ha, multiply_of_isNaN_right hb ha]
      exact ⟨rfl, rfl⟩
  | false =>
    cases hb : isNaN b with
    | true =>
      rw [addSub_of_isNaN_left _ _ hb, multiply_of_isNaN_left _ hb, addSub_of_isNaN_right _ ha hb,
        multiply_of_isNaN_right ha hb]
      exact ⟨rfl, rfl⟩
    | false => exact ⟨addSub_comm_of_not_isNaN ha hb, multiply_comm_of_not_isNaN ha hb⟩

/-- Settles O46: both tables are symmetric but for the order of the operands in SelectNaN. -/
theorem addAndMultiplyCommute : Obligations.AddAndMultiplyCommute := by
  intro a b
  simp only [resultsIn_addQpo_iff, resultsIn_mulQpo_iff]
  refine ⟨fun h => ?_, fun ha _ => ⟨addSub_of_isNaN_left b _ ha, multiply_of_isNaN_left b ha⟩⟩
  obtain ⟨hadd, hmul⟩ := commute_of_quiet_eq h
  exact ⟨_, _, rfl, hadd.symm, rfl, hmul.symm⟩

/-! ### Close operands -/

/-- A significand of at most 113 bits at an exponent no lower than the subnormal floor is a multiple of its quantum, so rounding
keeps it (42_round_to_odd.md R84). -/
theorem magnitude_roundToOdd_of_fits (s : Bool) {n : ℕ} {k : ℤ} (h0 : 0 < n) (hn : n < 2 ^ 113) (hk : -16494 ≤ k)
    (hmax : (n : ℚ) * (2 : ℚ) ^ k ≤ maxV) : magnitude (roundToOdd s ((n : ℚ) * (2 : ℚ) ^ k)) = (n : ℚ) * (2 : ℚ) ^ k := by
  have hx : 0 < (n : ℚ) * (2 : ℚ) ^ k := mul_pos (by exact_mod_cast h0) (zpow_two_pos k)
  have hb : binade ((n : ℚ) * (2 : ℚ) ^ k) - 112 ≤ k := by
    obtain ⟨-, -, hge⟩ := binade_spec hx
    rcases hge with hge | hge
    · omega
    · have := zpow_two_lt_iff.mp (hge.trans_lt (mul_zpow_lt hn))
      omega
  rw [magnitude_roundToOdd s hx hmax]
  generalize hxv : (n : ℚ) * (2 : ℚ) ^ k = x at *
  obtain ⟨j, hj⟩ := Int.le.dest hb
  have hexact : ((n * 2 ^ j : ℕ) : ℚ) * quantum x = x := by
    rw [quantum_eq, Nat.cast_mul, mul_assoc, natPow_mul_zpow, add_comm, hj, hxv]
  have hq : 0 < quantum x := by rw [quantum_eq]; exact zpow_two_pos _
  have ht : truncated x = n * 2 ^ j :=
    truncated_eq hx hexact.le (hexact.symm.trans_lt (mul_lt_mul_of_pos_right (lt_add_one _) hq))
  rw [oddSignificand, ht, if_pos hexact, hexact]

/-- The same of a value of either sign, or 0. -/
theorem value_fromReal_of_fits {x : ℚ} {n : ℕ} {k : ℤ} (zs : Bool) (hx : |x| = (n : ℚ) * (2 : ℚ) ^ k) (hn : n < 2 ^ 113)
    (hk : -16494 ≤ k) (hmax : |x| ≤ maxV) : value (fromReal x zs) = x := by
  by_cases h0 : x = 0
  · rw [h0, fromReal_zero, (value_eq_zero_iff _).mpr (isZero_signWord zs)]
  · obtain ⟨-, -, hsign, -⟩ := inexactIsOddNeverZeroNorInfinite x zs h0
    have hn0 : 0 < n := by
      rcases Nat.eq_zero_or_pos n with rfl | hn0
      · exact absurd (abs_eq_zero.mp (hx.trans (by simp))) h0
      · exact hn0
    rw [value, hsign, fromReal_of_ne_zero h0, hx, magnitude_roundToOdd_of_fits _ hn0 hn hk (hx ▸ hmax), ← hx, signed_abs]

/-- A difference no larger than the operand of the lower exponent is a significand of at most 113 bits at that exponent. -/
theorem difference_fits {x y : Word} (hx : isFinite x = true) (hy : isFinite y = true)
    (hexp : coreExponent x ≤ coreExponent y) (hle : magnitude y ≤ 2 * magnitude x) :
    ∃ (n : ℕ) (k : ℤ), |magnitude x - magnitude y| = (n : ℚ) * (2 : ℚ) ^ k ∧ n < 2 ^ 113 ∧ -16494 ≤ k ∧
      |magnitude x - magnitude y| ≤ maxV := by
  obtain ⟨hfloor, -, hsig, -, hmx⟩ := core_spec hx
  obtain ⟨-, -, -, -, hmy⟩ := core_spec hy
  obtain ⟨j, hj⟩ := Int.le.dest hexp
  have hz := zpow_two_pos (coreExponent x - 16495)
  have hdiff : |magnitude x - magnitude y| ≤ magnitude x := by
    have := magnitude_nonneg y
    rw [abs_le]
    constructor <;> linarith
  have hmy' : magnitude y = ((coreSignificand y * 2 ^ j : ℕ) : ℚ) * (2 : ℚ) ^ (coreExponent x - 16495) := by
    have hk : (j : ℤ) + (coreExponent x - 16495) = coreExponent y - 16495 := by omega
    rw [hmy, Nat.cast_mul, mul_assoc, natPow_mul_zpow, hk]
  have hn : |magnitude x - magnitude y| =
      (((coreSignificand x : ℤ) - (coreSignificand y * 2 ^ j : ℕ)).natAbs : ℚ) * (2 : ℚ) ^ (coreExponent x - 16495) := by
    rw [hmx, hmy', ← sub_mul, abs_mul, abs_of_pos hz, Nat.cast_natAbs, Int.cast_abs, Int.cast_sub, Int.cast_natCast,
      Int.cast_natCast]
  refine ⟨_, _, hn, ?_, by omega, hdiff.trans (magnitude_le_maxV hx)⟩
  rw [hn, hmx] at hdiff
  have : ((coreSignificand x : ℤ) - (coreSignificand y * 2 ^ j : ℕ)).natAbs ≤ coreSignificand x := by
    exact_mod_cast le_of_mul_le_mul_right hdiff hz
  omega

theorem signed_sub (s : Bool) (x y : ℚ) : signed s x - signed s y = signed s (x - y) := by
  cases s
  · rfl
  · simp only [signed, if_true]
    ring

theorem abs_signed (s : Bool) (x : ℚ) : |signed s x| = |x| := by
  cases s
  · rfl
  · exact abs_neg x

/-- Settles O47: the difference is no larger than either operand, so it fits at the lower of their exponents. -/
theorem closeOperandsSubtractExactly : Obligations.CloseOperandsSubtractExactly := by
  intro x y hx hy hs hlo hup
  rw [abs_value, abs_value] at hlo hup
  have hdiff : value x - value y = signed (signBit x) (magnitude x - magnitude y) := by
    have hs' : signBit y = signBit x := hs.symm
    rw [value, value, hs', signed_sub]
  obtain ⟨n, k, hn, hlt, hk, hmax⟩ : ∃ (n : ℕ) (k : ℤ), |value x - value y| = (n : ℚ) * (2 : ℚ) ^ k ∧ n < 2 ^ 113 ∧
      -16494 ≤ k ∧ |value x - value y| ≤ maxV := by
    rw [hdiff, abs_signed]
    rcases le_total (coreExponent x) (coreExponent y) with hexp | hexp
    · exact difference_fits hx hy hexp (by linarith)
    · rw [abs_sub_comm]
      exact difference_fits hy hx hexp hup
  refine ⟨_, resultsIn_subQpo_iff.mpr rfl, ?_⟩
  rw [addSub_of_isFinite _ hx hy, signed_not, ← value, ← sub_eq_add_neg]
  exact ⟨isFinite_fromReal _ _, value_fromReal_of_fits _ hn hlt hk hmax⟩

/-! ### The adder's datapath -/

/-- What an operand of the adder stands for (43_add_sub.md R97). -/
def Addend.value (x : Addend) : ℚ :=
  signed x.sign ((x.sig : ℚ) * (2 : ℚ) ^ (x.exp - 16495))

/-- An operand of the adder as a finite pattern gives it: exponent and significand in range, the significand normal above the
subnormal floor. -/
def Addend.Fits (x : Addend) : Prop :=
  1 ≤ x.exp ∧ x.exp ≤ 32766 ∧ x.sig < 2 ^ 113 ∧ (x.exp = 1 ∨ 2 ^ 112 ≤ x.sig)

/-- The operand a finite pattern gives, under any effective sign (43_add_sub.md R97). -/
theorem addend_spec {v : Word} (h : isFinite v = true) (s : Bool) :
    Addend.Fits ⟨s, coreExponent v, coreSignificand v⟩ ∧
      Addend.value ⟨s, coreExponent v, coreSignificand v⟩ = signed s (magnitude v) := by
  obtain ⟨hlo, hhi, hsig, hnorm, hmag⟩ := core_spec h
  exact ⟨⟨hlo, hhi, hsig, hnorm⟩, by rw [Addend.value, hmag]⟩

/-- The value with the three guard bits. -/
theorem Addend.value_eq (x : Addend) :
    x.value = signed x.sign (((8 * x.sig : ℕ) : ℚ) * (2 : ℚ) ^ (x.exp - 16498)) := by
  have hexp : x.exp - 16495 = (3 : ℕ) + (x.exp - 16498) := by push_cast; ring
  rw [Addend.value, hexp, ← natPow_mul_zpow]
  congr 1
  push_cast
  ring

/-- No swap: the second operand's exponent is `d` lower, and at one exponent its significand is no larger. -/
theorem Addend.exists_of_below_eq_false {x y : Addend} (h : x.below y = false) :
    ∃ d : ℕ, x.exp = y.exp + d ∧ (d = 0 → y.sig ≤ x.sig) := by
  simp only [Addend.below, Bool.or_eq_false_iff, Bool.and_eq_false_iff, decide_eq_false_iff_not] at h
  obtain ⟨hexp, hsig⟩ := h
  exact ⟨(x.exp - y.exp).toNat, by omega, by omega⟩

theorem Addend.below_asymm {x y : Addend} (h : x.below y = true) : y.below x = false := by
  simp only [Addend.below, Bool.or_eq_true, Bool.and_eq_true, decide_eq_true_iff] at h
  simp only [Addend.below, Bool.or_eq_false_iff, Bool.and_eq_false_iff, decide_eq_false_iff_not]
  omega

/-- The aligned addend and its sticky bit on the block's own shifter: neither the addend nor the amount exceeds its port. -/
theorem aligned_toNat {m d : ℕ} (hm : m < 2 ^ 113) (hd : d < 2 ^ 32) :
    (srs128 (BitVec.ofNat 128 (m <<< 3)) (BitVec.ofNat 32 d)).r.toNat = 8 * m / 2 ^ d ∧
      ((srs128 (BitVec.ofNat 128 (m <<< 3)) (BitVec.ofNat 32 d)).f = true ↔ 8 * m % 2 ^ d ≠ 0) := by
  have hm8 : (BitVec.ofNat 128 (m <<< 3)).toNat = 8 * m := by
    rw [BitVec.toNat_ofNat, Nat.shiftLeft_eq]
    omega
  have hamt : amount (BitVec.ofNat 32 d) = d := by
    rw [amount, BitVec.toNat_ofNat, Nat.mod_eq_of_lt hd]
  simp only [srs128, shiftRight_toNat, stickyRight_iff, hm8, hamt, and_self]

/-- The adder after the swap, in numbers: `j` is the aligned addend with its sticky jammed into bit 0 (43_add_sub.md R97). -/
theorem addAligned_eq_finish {x y : Addend} (hx : x.Fits) (hy : y.Fits) {d j : ℕ} (hd : x.exp = y.exp + d)
    (hj : j = if 8 * y.sig % 2 ^ d = 0 then 8 * y.sig / 2 ^ d else 2 * (8 * y.sig / 2 ^ d / 2) + 1) :
    addAligned x y =
      if (if x.sign = y.sign then 8 * x.sig + j else 8 * x.sig - j) = 0 then signWord (x.sign && y.sign)
      else finish x.sign (if x.sign = y.sign then 8 * x.sig + j else 8 * x.sig - j) (x.exp - 16498) false := by
  obtain ⟨-, hxe, -, -⟩ := hx
  obtain ⟨hye, -, hsig, -⟩ := hy
  obtain ⟨hr, hf⟩ := aligned_toNat (d := d) hsig (by omega)
  have hdn : (x.exp - y.exp).toNat = d := by omega
  have hscale : x.exp - 16383 - 112 - 3 = x.exp - 16498 := by ring
  have hbig : x.sig <<< 3 = 8 * x.sig := by rw [Nat.shiftLeft_eq]; ring
  simp only [addAligned, hdn, hscale, hbig, hr]
  rcases eq_or_ne (8 * y.sig % 2 ^ d) 0 with hlost | hlost
  · rw [if_pos hlost] at hj
    rw [Bool.eq_false_iff.mpr (fun h => hf.mp h hlost), Bool.toNat_false, Nat.or_zero, hj]
  · rw [if_neg hlost] at hj
    rw [hf.mpr hlost, Bool.toNat_true, or_one_eq_two_mul_half, hj]

/-- The addend in units of the larger operand's guard bit: truncated by the alignment, exact where no set bit is lost. -/
theorem aligned_value {x y : Addend} {d : ℕ} (hd : x.exp = y.exp + d) :
    ∃ v : ℚ, y.value = signed y.sign v ∧ ((8 * y.sig / 2 ^ d : ℕ) : ℚ) * (2 : ℚ) ^ (x.exp - 16498) ≤ v ∧
      v < (((8 * y.sig / 2 ^ d : ℕ) : ℚ) + 1) * (2 : ℚ) ^ (x.exp - 16498) ∧
      (((8 * y.sig / 2 ^ d : ℕ) : ℚ) * (2 : ℚ) ^ (x.exp - 16498) = v ↔ 8 * y.sig % 2 ^ d = 0) := by
  obtain ⟨hlo, hup, hexact⟩ := shifted_spec (k := y.exp - 16498) d le_rfl
    (mul_lt_mul_of_pos_right (lt_add_one ((8 * y.sig : ℕ) : ℚ)) (zpow_two_pos _))
  have hk : (d : ℤ) + (y.exp - 16498) = x.exp - 16498 := by omega
  rw [hk] at hlo hup hexact
  exact ⟨_, y.value_eq, hlo, hup, hexact.trans (and_iff_right rfl)⟩

/-- The aligned addend does not exceed the other operand (43_add_sub.md R97). -/
theorem aligned_le {x y : Addend} (hx : x.Fits) (hy : y.Fits) {d : ℕ} (hd : x.exp = y.exp + d)
    (h0 : d = 0 → y.sig ≤ x.sig) : 8 * y.sig / 2 ^ d ≤ 8 * x.sig := by
  obtain ⟨-, -, -, hnorm⟩ := hx
  obtain ⟨hexp, -, hsig, -⟩ := hy
  rcases Nat.eq_zero_or_pos d with rfl | hpos
  · simpa using h0 rfl
  · have htwo : 2 ^ 1 ≤ 2 ^ d := Nat.pow_le_pow_right (by decide) hpos
    have := Nat.div_le_div_left htwo (by decide) (a := 8 * y.sig)
    omega

/-- Alignment loses a set bit only past the three guard bits, and the larger operand is then normal (43_add_sub.md R98). -/
theorem aligned_inexact {x y : Addend} (hx : x.Fits) (hy : y.Fits) {d : ℕ} (hd : x.exp = y.exp + d)
    (h : 8 * y.sig % 2 ^ d ≠ 0) : 2 ^ 112 ≤ x.sig ∧ 8 * y.sig / 2 ^ d < 2 ^ 112 := by
  obtain ⟨-, -, -, hnorm⟩ := hx
  obtain ⟨hexp, -, hsig, -⟩ := hy
  have hfour : 4 ≤ d := by
    by_contra hlt
    have hdvd : 2 ^ d ∣ 2 ^ 3 := Nat.pow_dvd_pow 2 (by omega)
    exact h (Nat.mod_eq_zero_of_dvd (hdvd.mul_right y.sig))
  have hpow : 2 ^ 4 ≤ 2 ^ d := Nat.pow_le_pow_right (by decide) hfour
  have := Nat.div_le_div_left hpow (by decide) (a := 8 * y.sig)
  omega

/-- The adder after the swap rounds the exact sum: an exact alignment as it is, an inexact one through the jammed sticky
(43_add_sub.md R97, R98). -/
theorem addAligned_eq_fromReal {x y : Addend} (hx : x.Fits) (hy : y.Fits) (h : x.below y = false) :
    addAligned x y = fromReal (x.value + y.value) (x.sign && y.sign) := by
  obtain ⟨d, hd, h0⟩ := Addend.exists_of_below_eq_false h
  obtain ⟨v, hv, hlo, hup, hexact⟩ := aligned_value hd
  rw [addAligned_eq_finish hx hy hd rfl, hv, x.value_eq]
  rcases eq_or_ne (8 * y.sig % 2 ^ d) 0 with hlost | hlost
  · rw [if_pos hlost, ← hexact.mpr hlost]
    exact finish_exact_sum _ _ _ _ (aligned_le hx hy hd h0)
  · obtain ⟨hnorm, hsmall⟩ := aligned_inexact hx hy hd hlost
    obtain ⟨hlo', hup'⟩ := between_half (hlo.lt_of_ne (mt hexact.mp hlost)) hup
    generalize 8 * y.sig / 2 ^ d = q at hsmall hlo' hup' ⊢
    have hne : ¬ (if x.sign = y.sign then 8 * x.sig + (2 * (q / 2) + 1) else 8 * x.sig - (2 * (q / 2) + 1)) = 0 := by
      split <;> omega
    rw [if_neg hlost, if_neg hne]
    exact finish_jammed_sum _ _ _ hlo' hup' (by omega) (.inl (by omega))

/-- Settles O48: the swap puts the operand of the larger magnitude first, and the sum does not depend on the order. -/
theorem addDatapathIsExact : Obligations.AddDatapathIsExact := by
  intro a b sb ha hb
  obtain ⟨hxfit, hxval⟩ := addend_spec ha (signBit a)
  obtain ⟨hyfit, hyval⟩ := addend_spec hb sb
  rw [abs_value]
  change addCore a b sb = fromReal (value a + signed sb (magnitude b)) (signBit a && sb)
  rw [value, ← hxval, ← hyval, addCore]
  split
  next h => rw [addAligned_eq_fromReal hyfit hxfit (Addend.below_asymm h), add_comm, Bool.and_comm]
  next h => rw [addAligned_eq_fromReal hxfit hyfit (Bool.eq_false_iff.mpr h)]

end Sys2Proof.Machine
end

section
/-! PROOFS. The statements of 44_mul.md and 45_div.md on values: the multiplier's datapath (O50), the divider's datapath (O52), and
an exact quotient times its divisor (O53). -/
namespace Sys2Proof.Machine

/-! ### The multiplier's datapath -/

theorem coreSignificand_pos {v : Word} (h : isFinite v = true) (h0 : isZero v = false) : 1 ≤ coreSignificand v := by
  rw [Nat.one_le_iff_ne_zero, ne_eq, coreSignificand_eq_zero_iff h, h0]
  exact Bool.false_ne_true

/-- The product of two magnitudes is the wide product of the significands at the product's scale (44_mul.md R103). -/
theorem magnitude_mul_magnitude {a b : Word} (ha : isFinite a = true) (hb : isFinite b = true) :
    magnitude a * magnitude b =
      (wideProduct (coreSignificand a) (coreSignificand b) : ℚ) * (2 : ℚ) ^ productScale a b := by
  obtain ⟨-, -, hasig, -, hamag⟩ := core_spec ha
  obtain ⟨-, -, hbsig, -, hbmag⟩ := core_spec hb
  have hscale : productScale a b = (coreExponent a - 16495) + (coreExponent b - 16495) := by
    rw [productScale]
    ring
  rw [hamag, hbmag, wideProduct_eq hasig hbsig, hscale, zpow_two_add, Nat.cast_mul]
  ring

theorem one_le_wideProduct {a b : Word} (ha : isFinite a = true) (hb : isFinite b = true) (ha0 : isZero a = false)
    (hb0 : isZero b = false) : 1 ≤ wideProduct (coreSignificand a) (coreSignificand b) := by
  obtain ⟨-, -, hasig, -, -⟩ := core_spec ha
  obtain ⟨-, -, hbsig, -, -⟩ := core_spec hb
  rw [wideProduct_eq hasig hbsig]
  exact Nat.mul_pos (coreSignificand_pos ha ha0) (coreSignificand_pos hb hb0)

/-- Settles O50: the working value is the exact product, which `Finish` rounds. -/
theorem multiplyDatapathIsExact : Obligations.MultiplyDatapathIsExact := by
  intro a b ha hb ha0 hb0
  change mulCore a b = fromReal (value a * value b) (signXor a b)
  rw [value_mul_value, fromReal_signed _ (mul_pos (magnitude_pos ha0) (magnitude_pos hb0)),
    magnitude_mul_magnitude ha hb, mulCore, finish_exact _ _ (one_le_wideProduct ha hb ha0 hb0)]

/-! ### The divider's datapath -/

theorem value_div_value (a b : Word) : value a / value b = signed (signXor a b) (magnitude a / magnitude b) := by
  cases ha : signBit a <;> cases hb : signBit b <;> simp [value, signXor, signed, ha, hb, neg_div, div_neg]

/-- The 256-bit dividend on two ports, as the divider presents it to the wide divide (45_div.md R108). -/
theorem dividend_toNat {m : ℕ} (hm : m < 2 ^ 113) :
    (hiHalf (BitVec.ofNat 256 (m <<< 115))).toNat * 2 ^ 128 + (loHalf (BitVec.ofNat 256 (m <<< 115))).toNat =
      m * 2 ^ 115 := by
  rw [halves_toNat, BitVec.toNat_ofNat, Nat.shiftLeft_eq]
  omega

/-- The renormalised significands meet the wide divide's precondition (45_div.md R109), and the quotient has at least 114 bits. -/
theorem renormQuotient_spec {ma mb : ℕ} (ha : 2 ^ 112 ≤ ma) (ha' : ma < 2 ^ 113) (hb : 2 ^ 112 ≤ mb)
    (hb' : mb < 2 ^ 113) :
    ∃ p : Response, div256by128 (hiHalf (BitVec.ofNat 256 (ma <<< 115))) (loHalf (BitVec.ofNat 256 (ma <<< 115)))
        (BitVec.ofNat 128 mb) = .ok p ∧
      p.r.toNat = ma * 2 ^ 115 / mb ||| p.f.toNat ∧ (p.f = true ↔ ma * 2 ^ 115 % mb ≠ 0) ∧
      2 ^ 113 ≤ ma * 2 ^ 115 / mb := by
  have hn := dividend_toNat ha'
  have hmb : (BitVec.ofNat 128 mb).toNat = mb := by
    rw [BitVec.toNat_ofNat]
    omega
  have hlt : (hiHalf (BitVec.ofNat 256 (ma <<< 115))).toNat < (BitVec.ofNat 128 mb).toNat := by omega
  obtain ⟨p, hp, -, hf, hr⟩ := div256by128_of_lt (loHalf (BitVec.ofNat 256 (ma <<< 115))) hlt
  rw [hn, hmb] at hf hr
  refine ⟨p, hp, hr, hf, (Nat.le_div_iff_mul_le (by omega)).mpr (by omega)⟩

/-- A quotient of naturals lies between its floor and the next natural, at the floor exactly without a remainder. -/
theorem quotient_bounds {n d : ℕ} (hd : 0 < d) :
    ((n / d : ℕ) : ℚ) ≤ (n : ℚ) / d ∧ (n : ℚ) / d < ((n / d : ℕ) : ℚ) + 1 ∧
      (n % d = 0 ↔ ((n / d : ℕ) : ℚ) = (n : ℚ) / d) := by
  have hd' : (0 : ℚ) < d := by exact_mod_cast hd
  refine ⟨Nat.cast_div_le, ?_, ?_⟩
  · rw [div_lt_iff₀ hd']
    exact_mod_cast mul_comm d _ ▸ Nat.lt_mul_div_succ n hd
  · rw [eq_div_iff hd'.ne', ← Nat.dvd_iff_mod_eq_zero]
    constructor
    · intro h
      exact_mod_cast Nat.div_mul_cancel h
    · intro h
      exact Dvd.intro_left _ (by exact_mod_cast h)

/-- `Finish` of a quotient whose remainder is folded into bit 0 rounds the exact quotient (45_div.md R109). -/
theorem finish_quotient (s : Bool) {n d : ℕ} {k : ℤ} {f : Bool} (hd : 0 < d) (hf : f = true ↔ n % d ≠ 0)
    (hbig : 2 ^ 113 ≤ n / d) :
    finish s (n / d ||| f.toNat) k false = roundToOdd s ((n : ℚ) / d * (2 : ℚ) ^ k) := by
  obtain ⟨hlo, hup, hexact⟩ := quotient_bounds (n := n) hd
  have hz := zpow_two_pos k
  cases f with
  | false =>
    have hmod : n % d = 0 := by simpa using hf
    rw [Bool.toNat_false, Nat.or_zero, finish_exact s k (by omega), hexact.mp hmod]
  | true =>
    have hne : ((n / d : ℕ) : ℚ) ≠ (n : ℚ) / d := mt hexact.mpr (hf.mp rfl)
    have hjam : 2 ^ 113 ≤ n / d ||| 1 := hbig.trans Nat.left_le_or
    exact jammedStickyRoundsToOdd s (n / d) k _ (mul_lt_mul_of_pos_right (hlo.lt_of_ne hne) hz)
      (mul_lt_mul_of_pos_right hup hz) (one_le_finishShift (.inl hjam))

/-- The quotient of two magnitudes, from the renormalised significands (45_div.md R108). -/
theorem magnitude_div_magnitude {a b : Word} (ha : isFinite a = true) (hb : isFinite b = true) :
    magnitude a / magnitude b = ((renormSignificand a * 2 ^ 115 : ℕ) : ℚ) / (renormSignificand b : ℚ) *
      (2 : ℚ) ^ (renormExponent a - renormExponent b - 115) := by
  have hexp : renormExponent a - 16495 =
      (115 : ℕ) + ((renormExponent a - renormExponent b - 115) + (renormExponent b - 16495)) := by
    push_cast
    ring
  have hz := (zpow_two_pos (renormExponent b - 16495)).ne'
  rw [renorm_magnitude ha, renorm_magnitude hb, hexp, ← natPow_mul_zpow, zpow_two_add, Nat.cast_mul]
  field_simp

/-- Settles O52: renormalising keeps the values and meets the precondition, and the folded quotient rounds to the exact one. -/
theorem divideDatapathIsExact : Obligations.DivideDatapathIsExact := by
  intro a b ha hb ha0 hb0
  obtain ⟨halo, hahi⟩ := renormSignificand_spec ha ha0
  obtain ⟨hblo, hbhi⟩ := renormSignificand_spec hb hb0
  obtain ⟨p, hp, hr, hf, hbig⟩ := renormQuotient_spec halo hahi hblo hbhi
  change divCore a b = .ok (fromReal (value a / value b) (signXor a b))
  rw [value_div_value, fromReal_signed _ (div_pos (magnitude_pos ha0) (magnitude_pos hb0)),
    magnitude_div_magnitude ha hb, divCore, hp]
  simp only [hr, finish_quotient _ (by omega) hf hbig]

/-! ### An exact quotient times its divisor -/

/-- Settles O53: the exact product is the dividend's value, whose pattern rounding gives back. -/
theorem exactQuotientTimesDivisor : Obligations.ExactQuotientTimesDivisor := by
  intro a b w ha ha0 hb hb0 hw hval
  have hwfin : isFinite w = true := by
    rw [resultsIn_divQpo_iff, divide_of_not_isZero ha ha0 hb hb0] at hw
    exact hw ▸ isFinite_fromReal _ _
  have hb0' : value b ≠ 0 := by rw [ne_eq, value_eq_zero_iff, hb0]; exact Bool.false_ne_true
  rw [resultsIn_mulQpo_iff, multiply_of_isFinite hwfin hb, hval, div_mul_cancel₀ _ hb0']
  exact fromReal_value_of_not_isZero ha ha0 _

end Sys2Proof.Machine
end

section
/-! PROOFS. The statement of 46_fma.md on values: the fused datapath (O55). -/
namespace Sys2Proof.Machine

/-- What a term of the fused sum stands for (46_fma.md R113). -/
def Term.value (x : Term) : ℚ :=
  signed x.sign ((x.sig : ℚ) * (2 : ℚ) ^ x.scale)

/-- A nonzero term whose significand has a normal operand's bits, or that lies at the bottom of its range: `Finish` then discards
a bit of it. -/
def Term.Fits (x : Term) : Prop :=
  1 ≤ x.sig ∧ (2 ^ 112 ≤ x.sig ∨ x.scale ≤ -16492)

/-- The product of two operands as a term (46_fma.md R113). -/
def productTerm (a b : Word) : Term :=
  ⟨signXor a b, wideProduct (coreSignificand a) (coreSignificand b), productScale a b⟩

/-- An addend as a term (46_fma.md R113). -/
def addendTerm (c : Word) : Term :=
  ⟨signBit c, coreSignificand c, coreExponent c - 16383 - 112⟩

/-- The fused datapath where no factor is zero (46_fma.md R113). -/
theorem fmaCore_of_not_isZero {a b : Word} (c : Word) (ha0 : isZero a = false) (hb0 : isZero b = false) :
    fmaCore a b c =
      if isZero c = true then finish (signXor a b) (productTerm a b).sig (productTerm a b).scale false
      else if (addendTerm c).top ≤ (productTerm a b).top then fuseTerms (productTerm a b) (addendTerm c)
      else fuseTerms (addendTerm c) (productTerm a b) :=
  if_neg (by simp [ha0, hb0])

theorem productTerm_value {a b : Word} (ha : isFinite a = true) (hb : isFinite b = true) :
    (productTerm a b).value = value a * value b := by
  rw [Term.value, value_mul_value, magnitude_mul_magnitude ha hb]
  rfl

/-- A product of two subnormals is at the bottom of the range; with a normal factor it has that factor's bits. -/
theorem productTerm_fits {a b : Word} (ha : isFinite a = true) (hb : isFinite b = true) (ha0 : isZero a = false)
    (hb0 : isZero b = false) : (productTerm a b).Fits := by
  obtain ⟨-, -, hasig, hanorm, -⟩ := core_spec ha
  obtain ⟨-, -, hbsig, hbnorm, -⟩ := core_spec hb
  refine ⟨one_le_wideProduct ha hb ha0 hb0, ?_⟩
  simp only [productTerm, wideProduct_eq hasig hbsig, productScale]
  rcases hanorm with hasub | hanorm
  · rcases hbnorm with hbsub | hbnorm
    · right
      omega
    · exact .inl (hbnorm.trans (Nat.le_mul_of_pos_left _ (coreSignificand_pos ha ha0)))
  · exact .inl (hanorm.trans (Nat.le_mul_of_pos_right _ (coreSignificand_pos hb hb0)))

theorem addendTerm_scale (c : Word) : (addendTerm c).scale = coreExponent c - 16495 := by
  rw [addendTerm]
  ring

theorem addendTerm_value {c : Word} (hc : isFinite c = true) : (addendTerm c).value = value c := by
  obtain ⟨-, -, -, -, hmag⟩ := core_spec hc
  rw [Term.value, value, hmag, addendTerm_scale]
  rfl

theorem addendTerm_fits {c : Word} (hc : isFinite c = true) (hc0 : isZero c = false) : (addendTerm c).Fits := by
  obtain ⟨-, -, -, hnorm, -⟩ := core_spec hc
  refine ⟨coreSignificand_pos hc hc0, hnorm.symm.imp_right fun h => ?_⟩
  rw [addendTerm_scale]
  omega

/-- A term lies below the power of two above its top bit. -/
theorem Term.lt_top {x : Term} (h : 1 ≤ x.sig) : (x.sig : ℚ) * (2 : ℚ) ^ x.scale < (2 : ℚ) ^ (x.top + 1) := by
  obtain ⟨n, hn, -, hlt⟩ := bitlen_spec (m := x.sig) (by omega)
  have htop : x.top + 1 = (n + 1 : ℕ) + x.scale := by rw [Term.top, hn]; ring
  rw [htop]
  exact mul_zpow_lt hlt

/-- A term far below the other is a jammed sticky bit under three guard bits (46_fma.md R113, R114). -/
theorem fuseTerms_of_far {h j : Term} (hh : h.Fits) (hj : 1 ≤ j.sig) (hfar : j.top < h.scale - 2) :
    fuseTerms h j = fromReal (h.value + j.value) (h.sign && j.sign) := by
  obtain ⟨hpos, hbits⟩ := hh
  have hjpos : (0 : ℚ) < (j.sig : ℚ) * (2 : ℚ) ^ j.scale := mul_pos (by exact_mod_cast hj) (zpow_two_pos _)
  have hlo : ((0 : ℕ) : ℚ) * (2 : ℚ) ^ (h.scale - 3 + 1) < (j.sig : ℚ) * (2 : ℚ) ^ j.scale := by simpa using hjpos
  have hup : (j.sig : ℚ) * (2 : ℚ) ^ j.scale < (((0 : ℕ) : ℚ) + 1) * (2 : ℚ) ^ (h.scale - 3 + 1) := by
    rw [Nat.cast_zero, zero_add, one_mul]
    exact (Term.lt_top hj).trans_le (zpow_two_le_iff.mpr (by omega))
  have hguard : (h.sig : ℚ) * (2 : ℚ) ^ h.scale = ((8 * h.sig : ℕ) : ℚ) * (2 : ℚ) ^ (h.scale - 3) := by
    have hscale : h.scale = (3 : ℕ) + (h.scale - 3) := by push_cast; ring
    conv_lhs => rw [hscale, ← natPow_mul_zpow]
    push_cast
    ring
  have hsig : h.sig <<< 3 = 8 * h.sig := by rw [Nat.shiftLeft_eq]; ring
  have hbig : 2 ^ 113 ≤ 8 * h.sig - (2 * 0 + 1) ∨ h.scale - 3 ≤ -16495 := by omega
  have hjam := finish_jammed_sum h.sign j.sign (h.sign && j.sign) hlo hup (by omega) hbig
  rw [Nat.mul_zero, Nat.zero_add] at hjam
  rw [fuseTerms, if_pos hfar, hsig, Term.value, Term.value, hguard]
  exact hjam

theorem signed_eq_mul (s : Bool) (x : ℚ) : signed s x = (if s then -1 else 1) * x := by
  cases s <;> simp [signed]

/-- A term's integer in units of `2^low` (46_fma.md R113). -/
def Term.aligned (x : Term) (low : ℤ) : ℤ :=
  (if x.sign then -1 else 1) * (x.sig <<< (x.scale - low).toNat : ℕ)

theorem Term.value_eq_aligned (x : Term) {low : ℤ} (h : low ≤ x.scale) :
    x.value = (x.aligned low : ℚ) * (2 : ℚ) ^ low := by
  have hscale : x.scale = ((x.scale - low).toNat : ℕ) + low := by omega
  rw [Term.value, Term.aligned, signed_eq_mul, Nat.shiftLeft_eq]
  conv_lhs => rw [hscale, ← natPow_mul_zpow]
  push_cast
  ring

/-- `Finish` of a nonzero integer at a scale rounds it. -/
theorem finish_natAbs {n : ℤ} (hn : n ≠ 0) (k : ℤ) (zs : Bool) :
    finish (decide (n < 0)) n.natAbs k false = fromReal ((n : ℚ) * (2 : ℚ) ^ k) zs := by
  have hz := zpow_two_pos k
  have hne : (n : ℚ) * (2 : ℚ) ^ k ≠ 0 := mul_ne_zero (by exact_mod_cast hn) hz.ne'
  have hneg : (n : ℚ) * (2 : ℚ) ^ k < 0 ↔ n < 0 :=
    ⟨fun h => by exact_mod_cast neg_of_mul_neg_left h hz.le, fun h => mul_neg_of_neg_of_pos (by exact_mod_cast h) hz⟩
  rw [finish_exact _ _ (Int.natAbs_pos.mpr hn), fromReal_of_ne_zero hne, abs_mul, abs_of_pos hz, Nat.cast_natAbs,
    Int.cast_abs]
  simp only [hneg]

/-- Nonzero terms of value sum 0 have not both a negative sign: neither would be positive. -/
theorem Term.sign_of_cancel {h j : Term} (hh : 1 ≤ h.sig) (hsum : h.value + j.value = 0) :
    (h.sign && j.sign) = false := by
  have hhpos : 0 < (h.sig : ℚ) * (2 : ℚ) ^ h.scale := mul_pos (by exact_mod_cast hh) (zpow_two_pos _)
  have hjnonneg : 0 ≤ (j.sig : ℚ) * (2 : ℚ) ^ j.scale := mul_nonneg j.sig.cast_nonneg (zpow_two_pos _).le
  rw [Bool.eq_false_iff, ne_eq, Bool.and_eq_true]
  rintro ⟨hs, ht⟩
  simp only [Term.value, signed, hs, ht, if_true] at hsum
  linarith

/-- Terms near each other are added exactly; an exact cancellation of nonzero terms is +0 (46_fma.md R111, R113). -/
theorem fuseTerms_of_near {h j : Term} (hh : 1 ≤ h.sig) (hnear : ¬ j.top < h.scale - 2) :
    fuseTerms h j = fromReal (h.value + j.value) (h.sign && j.sign) := by
  have hfuse : fuseTerms h j =
      if h.aligned (min h.scale j.scale) + j.aligned (min h.scale j.scale) = 0 then pZero
      else finish (decide (h.aligned (min h.scale j.scale) + j.aligned (min h.scale j.scale) < 0))
        (h.aligned (min h.scale j.scale) + j.aligned (min h.scale j.scale)).natAbs (min h.scale j.scale) false :=
    if_neg hnear
  have hsum : h.value + j.value =
      ((h.aligned (min h.scale j.scale) + j.aligned (min h.scale j.scale) : ℤ) : ℚ) * (2 : ℚ) ^ min h.scale j.scale := by
    rw [h.value_eq_aligned (min_le_left _ _), j.value_eq_aligned (min_le_right _ _), Int.cast_add, add_mul]
  rw [hfuse]
  split_ifs with h0
  · have hzero : h.value + j.value = 0 := by rw [hsum, h0, Int.cast_zero, zero_mul]
    rw [hzero, Term.sign_of_cancel hh hzero, fromReal_zero]
    decide
  · rw [hsum, finish_natAbs h0]

/-- The fused sum of two nonzero terms is exact before its one rounding (46_fma.md R114). -/
theorem fuseTerms_eq_fromReal {h j : Term} (hh : h.Fits) (hj : 1 ≤ j.sig) :
    fuseTerms h j = fromReal (h.value + j.value) (h.sign && j.sign) := by
  by_cases hfar : j.top < h.scale - 2
  · exact fuseTerms_of_far hh hj hfar
  · exact fuseTerms_of_near hh.1 hfar

/-- With a zero factor the exact sum is the addend (46_fma.md R111, R113). -/
theorem fmaCore_of_isZero {a b c : Word} (hc : isFinite c = true) (hab : isZero a = true ∨ isZero b = true) :
    fmaCore a b c = fromReal (value a * value b + value c) (signXor a b && signBit c) := by
  have hzero {v : Word} : isZero v = true → value v = 0 := (value_eq_zero_iff v).mpr
  have hprod : value a * value b = 0 := mul_eq_zero.mpr (hab.imp hzero hzero)
  rw [fmaCore, if_pos (by simpa using hab), hprod, zero_add]
  split
  next hc0 => rw [hzero hc0, fromReal_zero]
  next hc0 => rw [fromReal_value_of_not_isZero hc (Bool.eq_false_iff.mpr hc0)]

/-- With nonzero factors the datapath rounds the product, or its fused sum with the addend in the order of their top bits
(46_fma.md R113, R114). -/
theorem fmaCore_of_nonzero_product {a b c : Word} (ha : isFinite a = true) (hb : isFinite b = true)
    (hc : isFinite c = true) (ha0 : isZero a = false) (hb0 : isZero b = false) :
    fmaCore a b c = fromReal (value a * value b + value c) (signXor a b && signBit c) := by
  have hpfit := productTerm_fits ha hb ha0 hb0
  rw [fmaCore_of_not_isZero c ha0 hb0, ← productTerm_value ha hb]
  cases hc0 : isZero c with
  | true =>
    have hpos : 0 < ((productTerm a b).sig : ℚ) * (2 : ℚ) ^ (productTerm a b).scale :=
      mul_pos (by exact_mod_cast hpfit.1) (zpow_two_pos _)
    rw [if_pos rfl, (value_eq_zero_iff c).mpr hc0, add_zero, finish_exact _ _ hpfit.1, Term.value, fromReal_signed _ hpos]
    rfl
  | false =>
    have hcfit := addendTerm_fits hc hc0
    rw [if_neg Bool.false_ne_true, ← addendTerm_value hc]
    split_ifs
    · exact fuseTerms_eq_fromReal hpfit hcfit.1
    · rw [add_comm, Bool.and_comm]
      exact fuseTerms_eq_fromReal hcfit hpfit.1

/-- Settles O55: a zero factor leaves the addend, and otherwise the fused sum is exact before its one rounding. -/
theorem fusedDatapathIsExact : Obligations.FusedDatapathIsExact := by
  intro a b c ha hb hc
  by_cases hab : isZero a = true ∨ isZero b = true
  · exact fmaCore_of_isZero hc hab
  · rw [not_or, Bool.not_eq_true, Bool.not_eq_true] at hab
    exact fmaCore_of_nonzero_product ha hb hc hab.1 hab.2

end Sys2Proof.Machine
end

section
/-! PROOFS. The statement of 60_exceptions.md on infinite results (O56). -/
namespace Sys2Proof.Machine

theorem isInf_quiet {v : Word} (h : isNaN v = true) : isInf (quiet v) = false := by
  rw [isInf, classify_quiet_of_isNaN h]
  rfl

theorem isInf_fromReal (x : ℚ) (zs : Bool) : isInf (fromReal x zs) = false :=
  (not_special_of_isFinite (isFinite_fromReal x zs)).1

/-- A sum with no infinite operand is a quieted NaN or a rounded value, no infinity. -/
theorem isInf_addSub {a b : Word} (sb : Bool) (ha : isInf a = false) (hb : isInf b = false) :
    isInf (addSub a b sb) = false := by
  cases hanan : isNaN a with
  | true => rw [addSub_of_isNaN_left b sb hanan, isInf_quiet hanan]
  | false =>
    cases hbnan : isNaN b with
    | true => rw [addSub_of_isNaN_right sb hanan hbnan, isInf_quiet hbnan]
    | false =>
      rw [addSub_of_not_isNaN sb hanan hbnan, if_neg (by simp [ha]), if_neg (by simp [hb])]
      exact isInf_fromReal _ _

/-- A product likewise. -/
theorem isInf_multiply {a b : Word} (ha : isInf a = false) (hb : isInf b = false) : isInf (multiply a b) = false := by
  cases hanan : isNaN a with
  | true => rw [multiply_of_isNaN_left b hanan, isInf_quiet hanan]
  | false =>
    cases hbnan : isNaN b with
    | true => rw [multiply_of_isNaN_right hanan hbnan, isInf_quiet hbnan]
    | false =>
      rw [multiply_of_not_isNaN hanan hbnan, if_neg (by simp [ha, hb]), if_neg (by simp [ha, hb])]
      exact isInf_fromReal _ _

/-- A quotient with no infinite operand is infinite only for a finite nonzero dividend and a zero divisor. -/
theorem isInf_divide {a b : Word} (ha : isInf a = false) (hb : isInf b = false) (h : isInf (divide a b) = true) :
    isFinite a = true ∧ isZero a = false ∧ isZero b = true := by
  cases hanan : isNaN a with
  | true => simp [divide_of_isNaN_left b hanan, isInf_quiet hanan] at h
  | false =>
    cases hbnan : isNaN b with
    | true => simp [divide_of_isNaN_right hanan hbnan, isInf_quiet hbnan] at h
    | false =>
      have hafin : isFinite a = true := (finite_or_inf_or_nan a).resolve_right (by simp [ha, hanan])
      have hbfin : isFinite b = true := (finite_or_inf_or_nan b).resolve_right (by simp [hb, hbnan])
      cases hb0 : isZero b with
      | true =>
        refine ⟨hafin, ?_, rfl⟩
        rw [Bool.eq_false_iff]
        intro ha0
        rw [divide_of_isZero_isZero ha0 hb0] at h
        exact absurd h (by decide)
      | false =>
        cases ha0 : isZero a with
        | true =>
          rw [divide_of_isZero_left ha0 hbfin hb0, withSign_pZero] at h
          exact absurd h (by simp [(not_special_of_isFinite (isFinite_of_isZero (isZero_signWord _))).1])
        | false =>
          rw [divide_of_not_isZero hafin ha0 hbfin hb0, isInf_fromReal] at h
          exact absurd h Bool.false_ne_true

/-- A fused result likewise, the addend counted. -/
theorem isInf_fusedMultiplyAdd {a b c : Word} (ha : isInf a = false) (hb : isInf b = false) (hc : isInf c = false) :
    isInf (fusedMultiplyAdd a b c) = false := by
  cases hanan : isNaN a with
  | true => rw [fusedMultiplyAdd_of_isNaN_left b c hanan, isInf_quiet hanan]
  | false =>
    cases hbnan : isNaN b with
    | true => rw [fusedMultiplyAdd_of_isNaN_right c hanan hbnan, isInf_quiet hbnan]
    | false =>
      cases hcnan : isNaN c with
      | true => rw [fusedMultiplyAdd_of_isNaN_addend hanan hbnan hcnan, isInf_quiet hcnan]
      | false =>
        rw [fusedMultiplyAdd_of_not_isNaN hanan hbnan hcnan, if_neg (by simp [ha, hb]), if_neg (by simp [ha, hb]),
          if_neg (by simp [hc])]
        exact isInf_fromReal _ _

/-- Settles O56: with no infinite operand each table gives a quieted NaN, a zero or a rounded value, but for the row of the zero
divisor. -/
theorem infinityOnlyFromInfinityOrZeroDivisor : Obligations.InfinityOnlyFromInfinityOrZeroDivisor := by
  intro a b c w i hi hres hw
  cases ha : isInf a with
  | true => exact .inl rfl
  | false =>
    cases hb : isInf b with
    | true => exact .inr (.inl rfl)
    | false =>
      simp only [List.mem_cons, List.not_mem_nil, or_false] at hi
      rcases hi with rfl | rfl | rfl | rfl | rfl
      · rw [← resultsIn_addQpo_iff.mp hres, isInf_addSub _ ha hb] at hw
        exact absurd hw Bool.false_ne_true
      · rw [← resultsIn_subQpo_iff.mp hres, isInf_addSub _ ha hb] at hw
        exact absurd hw Bool.false_ne_true
      · rw [← resultsIn_mulQpo_iff.mp hres, isInf_multiply ha hb] at hw
        exact absurd hw Bool.false_ne_true
      · rw [← resultsIn_divQpo_iff.mp hres] at hw
        exact .inr (.inr (.inr ⟨rfl, isInf_divide ha hb hw⟩))
      · cases hc : isInf c with
        | true => exact .inr (.inr (.inl ⟨rfl, rfl⟩))
        | false =>
          rw [← resultsIn_fmaQpo_iff.mp hres, isInf_fusedMultiplyAdd ha hb hc] at hw
          exact absurd hw Bool.false_ne_true

end Sys2Proof.Machine
end
